-- ==== Sys2Proof/Word.lean ====
section
/-! DEFINITION. The bit-vector types of the engine: bytes, 32-bit words and 40-bit command words
(spec/00_scope.md R6, R8). Every value is unsigned. -/

namespace Sys2Proof

/-- A message byte, a byte of BUF, an opcode (R6). -/
abbrev Byte := BitVec 8

/-- "Word: a 32-bit unsigned value" (R6); addition on it is the spec's `+32` (R9). -/
abbrev Word := BitVec 32

/-- A 40-bit command word as the command port carries it (R90). -/
abbrev CmdWord := BitVec 40

end Sys2Proof
end

