-- ==== Sys2Proof/Machine/Alu.lean ====
section
/-! DEFINITION. The rotate-and-logic ALU, the function selector and the round-constant ROM
(spec/41_alu.md R170 to R179). None of these writes a flag. -/

namespace Sys2Proof.Machine

/-- `ROTL(x, n)` for n = 0..31: `((x << n) OR (x >> (32 - n))) mod 2^32` (R170). -/
def rotl (x : Word) (n : Nat) : Word := x <<< n ||| x >>> (32 - n)

/-- `XOR4(p, q, r, s)` (R172). -/
def xor4 (p q r s : Word) : Word := p ^^^ q ^^^ r ^^^ s

/-- `CH(b, c, d)` (R173). -/
def ch (b c d : Word) : Word := b &&& c ||| ~~~b &&& d

/-- `PARITY(b, c, d)` (R174). -/
def parity (b c d : Word) : Word := b ^^^ c ^^^ d

/-- `MAJ(b, c, d)` (R175). -/
def maj (b c d : Word) : Word := b &&& c ||| b &&& d ||| c &&& d

/-- `FSEL(t)`, the 2-bit selector `t div 20` for t = 0..79 (R176). -/
def fsel (t : Nat) : BitVec 2 := BitVec.ofNat 2 (t / 20)

/-- `F(t, b, c, d)`, the function FSEL(t) selects (R177). -/
def logical (t : Nat) (b c d : Word) : Word :=
  if fsel t = 0 then ch b c d
  else if fsel t = 1 then parity b c d
  else if fsel t = 2 then maj b c d
  else parity b c d

/-- The K ROM (R178). -/
def kRom : Vector Word 4 := #v[0x5A827999, 0x6ED9EBA1, 0x8F1BBCDC, 0xCA62C1D6]

/-- `K(t)`, indexed by `t div 20` (R178). -/
def roundK (t : Nat) : Word := kRom[(fsel t).toNat]'(fsel t).isLt

/-- `SUM5(A, E, f, w, k)` (R179), every addition mod 2^32. -/
def sum5 (a e f w k : Word) : Word := rotl a 5 + f + e + w + k

end Sys2Proof.Machine
end

