-- ==== Sys2Proof/Config.lean ====
section
/-! DEFINITION. The constants the spec fixes for the engine (spec/00_scope.md R6, spec/10_state.md R31).
The one open parameter, `N_ENGINES` (R7), is the argument of `Machine.Platform`. The spec leaves no
result or register undefined, so there is no free value here. -/

namespace Sys2Proof

/-- MAX_BYTES, the longest message in bytes (R6, R125). -/
def Config.maxBytes : Nat := 2 ^ 61 - 1

/-- Rounds in one block, t = 0..79 (R6). -/
def Config.rounds : Nat := 80

/-- The IV ROM: H0..H4 at the start of a message (R31). -/
def Config.iv : Vector Word 5 :=
  #v[0x67452301, 0xEFCDAB89, 0x98BADCFE, 0x10325476, 0xC3D2E1F0]

end Sys2Proof
end

