-- ==== Sys2Proof/Machine/State.lean ====
section
/-! DEFINITION. The state of the machine as plain data: the engine's fourteen elements
(spec/10_state.md R20), and beside them what the host has on the two ports and is still to do. -/

namespace Sys2Proof.Machine

/-- MODE, the operating mode (R32). -/
inductive Mode where
  /-- 0: a message is open. -/
  | ready
  /-- 1: a block is being compressed; the command port is not ready. -/
  | busy
  /-- 2: the digest is in H. -/
  | done
  /-- 3: the message was aborted by TOOLARGE. -/
  | error
deriving DecidableEq, Repr

/-- NEXT, what ACCUM does after a block (R28). The code 3 never occurs (R28, R39; log entry 7). -/
inductive Next where
  /-- 0: MODE <- READY. -/
  | resume
  /-- 1: start the second padding block. -/
  | second
  /-- 2: MODE <- DONE. -/
  | finish
deriving DecidableEq, Repr

/-- The error kinds of R301. -/
inductive ErrorKind where
  | illegal
  | seq
  | tooLarge
deriving DecidableEq, Repr

/-- The engine's state: "exactly the elements below ... and nothing else is state" (R20). -/
@[ext] structure Engine where
  /-- H[0..4], the state accumulator (R21). -/
  h : Vector Word 5
  /-- X[0..4] = A, B, C, D, E, the working variables (R22). -/
  x : Vector Word 5
  /-- W[0..15], the message-schedule window (R23). -/
  w : Vector Word 16
  /-- BUF[0..63], the block buffer (R24). -/
  buf : Vector Byte 64
  /-- FILL, message bytes in BUF that no block start has consumed (R25). -/
  fill : BitVec 6
  /-- NBYTES, message bytes absorbed since INIT or reset (R26). -/
  nbytes : BitVec 64
  /-- T, the round counter (R27). -/
  t : BitVec 7
  /-- NEXT (R28). -/
  next : Next
  /-- MODE (R32). -/
  mode : Mode
  /-- ERR_ILLEGAL (R33). -/
  errIllegal : Bool
  /-- ERR_SEQ (R33). -/
  errSeq : Bool
  /-- ERR_TOOLARGE (R33). -/
  errTooLarge : Bool
  /-- ERR_OP, the opcode of the first rejected command (R34). -/
  errOp : Byte
  /-- ERR_ARG, the argument of the first rejected command (R34). -/
  errArg : Word
deriving DecidableEq, Repr

/-- One action of the interleaving (R73): an action of the host, or a turn of the engine's side. -/
inductive Action where
  /-- The host puts a command word on the command port (R90). -/
  | issue (w : CmdWord)
  /-- The host is blocked until the port has taken the word it holds (R99). -/
  | sync
  /-- The host reads register `idx` on the read port (R98, R250). -/
  | read (idx : BitVec 8)
  /-- The host asserts reset (R340). -/
  | reset
  /-- The host's WAIT loop: read STATUS until MODE ≠ BUSY (R100). -/
  | wait
  /-- The engine's side has the turn: one engine step, or the port takes a held word. -/
  | engine
deriving DecidableEq, Repr

/-- The host's side of the two ports. None of it is state of the engine (R20). -/
structure HostSide where
  /-- The word the host is holding on the command port, not yet taken (R90, R344). -/
  cmdWord : Option CmdWord
  /-- What the latest host read returned (R250; log entry 18); none before the first read. -/
  readData : Option Word
  /-- The actions still to come, in the order of the interleaving (R73). When it is empty only the
  engine's side moves. No rule fixes it: a statement about every state holds for every
  interleaving (log entry 1). -/
  agenda : List Action
deriving DecidableEq, Repr

/-- The machine: the engine and the host's side of its ports. -/
structure State where
  engine : Engine
  host : HostSide
deriving DecidableEq, Repr

/-- The reset value of every element, the last column of R20's table (R340). -/
def Engine.reset : Engine where
  h := Config.iv
  x := Vector.replicate 5 0
  w := Vector.replicate 16 0
  buf := Vector.replicate 64 0
  fill := 0
  nbytes := 0
  t := 0
  next := .resume
  mode := .ready
  errIllegal := false
  errSeq := false
  errTooLarge := false
  errOp := 0
  errArg := 0

/-- A host that holds no word, has read nothing and has nothing to do (log entry 3). -/
def HostSide.idle : HostSide where
  cmdWord := none
  readData := none
  agenda := []

/-- The machine right after reset (R340, R342). -/
def State.reset : State where
  engine := Engine.reset
  host := HostSide.idle

/-- A reason to stop with a fault. There is none: "No behaviour of this engine is `stuck`, and none
is `fault`" (spec/93_implementation_defined.md, part 2; R300; log entry 8). -/
inductive Fault where
deriving DecidableEq, Repr

/-- A reason to refuse an instruction. -/
inductive Refusal where
  /-- Raised by an arm of `exec` whose instruction has no meaning yet: no arm of this model.
  Safe: a refused instruction proves nothing. -/
  | notModelled (mnemonic : String)
deriving DecidableEq, Repr

end Sys2Proof.Machine
end

