-- ==== Sys2Proof/Machine/Flags.lean ====
section
/-! DEFINITION. The status side of the engine: the codes of MODE and NEXT, CMD_READY, and the two
packed registers STATUS and SEQ (spec/10_state.md R28, R32, R35, R36, R42). The engine has no
condition codes and no arithmetic flags (R43). -/

namespace Sys2Proof.Machine

/-- The two bits of MODE (R32). -/
def Mode.code : Mode → BitVec 2
  | .ready => 0
  | .busy => 1
  | .done => 2
  | .error => 3

/-- The two bits of NEXT (R28). -/
def Next.code : Next → BitVec 2
  | .resume => 0
  | .second => 1
  | .finish => 2

/-- `CMD_READY = (MODE ≠ BUSY)` (R42). -/
abbrev Engine.CmdReady (e : Engine) : Prop := e.mode ≠ .busy

/-- DVALID: 1 iff MODE = DONE (R35). -/
def Engine.dvalid (e : Engine) : Bool := e.mode == .done

/-- Some error flag is set (the test of R302). -/
def Engine.anyError (e : Engine) : Bool := e.errIllegal || e.errSeq || e.errTooLarge

/-- The message is closed: MODE is DONE or ERROR, where ABSORBk and FINAL raise SEQ (R304). -/
def Engine.closed (e : Engine) : Bool := e.mode == .done || e.mode == .error

/-- STATUS, read index 0x00 (R35). -/
def Engine.status (e : Engine) : Word :=
  (BitVec.ofBool e.errTooLarge ++ BitVec.ofBool e.errSeq ++ BitVec.ofBool e.errIllegal ++
    (0 : BitVec 1) ++ BitVec.ofBool e.dvalid ++ e.mode.code).setWidth 32

/-- SEQ, read index 0x04 (R36). -/
def Engine.seq (e : Engine) : Word :=
  (e.next.code ++ (0 : BitVec 1) ++ e.t).setWidth 32

end Sys2Proof.Machine
end

