-- ==== Sys2Proof/Machine/Operands.lean ====
section
/-! DEFINITION. The byte orders and field selections of the engine's operands: lanes of an ABSORB
argument, big-endian words, the big-endian length field (spec/20_memory.md R62 to R65,
spec/30_encoding.md R91, R92). -/

namespace Sys2Proof.Machine

/-- The opcode field, bits 39:32 of a command word (R91). -/
def opField (w : CmdWord) : Byte := w.extractLsb' 32 8

/-- The argument field, bits 31:0 of a command word (R91). -/
def argField (w : CmdWord) : Word := w.extractLsb' 0 32

/-- Lane i of an argument, `arg[31-8i : 24-8i]` for i = 0..3; lane 0 is the first message byte
(R64, R92). -/
def lane (arg : Word) (i : Nat) : Byte := arg.extractLsb' (24 - 8 * i) 8

/-- `be32(b0, b1, b2, b3)`: first byte most significant (R9, R62). -/
def be32 (b0 b1 b2 b3 : Byte) : Word := b0 ++ b1 ++ b2 ++ b3

/-- Byte i (i = 0..7) of `be64bytes(v)`, most significant first: `v[63-8i : 56-8i]` (R9, R63). -/
def be64Byte (v : BitVec 64) (i : Nat) : Byte := v.extractLsb' (56 - 8 * i) 8

/-- The 8 bytes of `be64bytes(v)` in order (R9). -/
def be64bytes (v : BitVec 64) : List Byte :=
  [be64Byte v 0, be64Byte v 1, be64Byte v 2, be64Byte v 3,
   be64Byte v 4, be64Byte v 5, be64Byte v 6, be64Byte v 7]

end Sys2Proof.Machine
end

