-- ==== Sys2Proof/Machine/Ops.lean ====
section
/-! DEFINITION. The named operations over the engine's registers and its block buffer: reads of W and
BUF by position, recording an error (spec/60_exceptions.md R302), starting a block
(spec/40_padding_and_blocks.md R140), inserting a byte (R126), and taking a command at the port.
There is no return from an error (R308): INIT and reset are the only recovery (R309). -/

namespace Sys2Proof.Machine

/-- Byte j of the block buffer, taken mod 64; j is 0..63 in every use (R60, R61; log entry 6). -/
def Engine.bufByte (e : Engine) (j : Nat) : Byte :=
  e.buf[j % 64]'(Nat.mod_lt j (by decide))

/-- Word n mod 16 of the schedule window (R60). -/
def Engine.wAt (e : Engine) (n : Nat) : Word :=
  e.w[n % 16]'(Nat.mod_lt n (by decide))

/-- Block word i of the buffer, `be32(BUF[4i], BUF[4i+1], BUF[4i+2], BUF[4i+3])` (R62). -/
def Engine.blockWord (e : Engine) (i : Nat) : Word :=
  be32 (e.bufByte (4 * i)) (e.bufByte (4 * i + 1)) (e.bufByte (4 * i + 2)) (e.bufByte (4 * i + 3))

/-- `BufWrite(FILL, v)` (R10, R61). -/
def Engine.writeAtFill (e : Engine) (v : Byte) : Engine :=
  { e with buf := e.buf.set e.fill.toNat v e.fill.isLt }

/-- The capture of R302: ERR_OP and ERR_ARG are written only when no error flag was set. -/
def Engine.capture (e : Engine) (op : Byte) (arg : Word) : Engine :=
  if e.anyError then e else { e with errOp := op, errArg := arg }

/-- The flag of R302: the sticky flag of the kind, and MODE <- ERROR for TOOLARGE. -/
def Engine.setError (e : Engine) : ErrorKind → Engine
  | .illegal => { e with errIllegal := true }
  | .seq => { e with errSeq := true }
  | .tooLarge => { e with errTooLarge := true, mode := .error }

/-- `raise Error(kind, op, arg)` (R302): the ONE way an error is taken. It transfers no control
(R300); the command that raises it has no other effect. -/
def Engine.raise (e : Engine) (kind : ErrorKind) (op : Byte) (arg : Word) : Engine :=
  (e.capture op arg).setError kind

/-- `BlockStart()` (R140). The caller sets NEXT. -/
def Engine.blockStart (e : Engine) : Engine :=
  { e with
    w := Vector.ofFn fun i : Fin 16 => e.blockWord i.val
    x := e.h
    t := 0
    mode := .busy }

/-- One byte of the loop of R120: insertion at FILL, and block completion at position 63 (R126). -/
def Engine.absorbByte (e : Engine) (b : Byte) : Engine :=
  let e := { e.writeAtFill b with nbytes := e.nbytes + 1 }
  if e.fill = 63 then Engine.blockStart { e with fill := 0, next := .resume }
  else { e with fill := e.fill + 1 }

/-- `AbsorbBytes(k, b, op, arg)` (R120) for MODE ≠ BUSY: SEQ in DONE and ERROR, then the length
bound (R125), then every byte in order. The bound is compared without wrapping (log entry
15). -/
def Engine.absorbBytes (e : Engine) (bs : List Byte) (op : Byte) (arg : Word) : Engine :=
  if e.closed then e.raise .seq op arg
  else if Config.maxBytes < e.nbytes.toNat + bs.length then e.raise .tooLarge op arg
  else bs.foldl Engine.absorbByte e

/-- A command acts on the engine only where CMD_READY = 1 (R90). While BUSY it has no effect: the
port does not take it, and it waits (R350, spec/93_implementation_defined.md U7; log entry 4).
The host's side of the ports is not touched. -/
def whenReady (f : Engine → Engine) (s : State) : Host.Outcome State Fault Refusal :=
  if s.engine.mode = .busy then .next s else .next { s with engine := f s.engine }

end Sys2Proof.Machine
end

