-- ==== Sys2Proof/Machine/Compress.lean ====
section
/-! DEFINITION. The engine's own steps while MODE = BUSY: word expansion, ROUND, ACCUM and Continue
(spec/42_schedule_and_round.md R200 to R206). -/

namespace Sys2Proof.Machine

/-- The value of `SCHED(t)`: W[t] for t < 16, else the rotated XOR of four window words (R201). -/
def Engine.schedWord (e : Engine) (t : Nat) : Word :=
  if t < 16 then e.wAt t
  else rotl (xor4 (e.wAt (t - 3)) (e.wAt (t - 8)) (e.wAt (t - 14)) (e.wAt t)) 1

/-- The window after `SCHED(t)`: for t ≥ 16 it has replaced W[t mod 16] (R201). -/
def Engine.schedWindow (e : Engine) (t : Nat) : Vector Word 16 :=
  if t < 16 then e.w
  else e.w.set (t % 16) (e.schedWord t) (Nat.mod_lt t (by decide))

/-- ROUND, round t = T (R203). -/
def Engine.round (e : Engine) : Engine :=
  let t := e.t.toNat
  { e with
    x := #v[sum5 e.x[0] e.x[4] (logical t e.x[1] e.x[2] e.x[3]) (e.schedWord t) (roundK t),
            e.x[0], rotl e.x[1] 30, e.x[2], e.x[3]]
    w := e.schedWindow t
    t := e.t + 1 }

/-- `Continue()` (R206). -/
def Engine.continueSeq (e : Engine) : Engine :=
  match e.next with
  | .resume => { e with mode := .ready, t := 0 }
  | .second => Engine.blockStart { e with next := .finish }
  | .finish => { e with mode := .done, next := .resume, t := 0 }

/-- H after the five additions of ACCUM (R205). -/
def Engine.sumH (e : Engine) : Vector Word 5 :=
  #v[e.h[0] + e.x[0], e.h[1] + e.x[1], e.h[2] + e.x[2], e.h[3] + e.x[3], e.h[4] + e.x[4]]

/-- ACCUM (R205). -/
def Engine.accum (e : Engine) : Engine :=
  Engine.continueSeq { e with h := e.sumH }

/-- `EngineStep()` (R200), enabled iff MODE = BUSY. Its `else` is R200's: with T above 80, which
no reachable state has, it is ACCUM too (log entry 7). -/
def Engine.step (e : Engine) : Engine :=
  if e.t.toNat < Config.rounds then e.round else e.accum

end Sys2Proof.Machine
end

