-- ==== Sys2Proof/Syntax.lean ====
section
/-! DEFINITION. The command set `CC-SHA1-CMD v1`: one constructor for each row of
spec/opcode_table.json (spec/30_encoding.md R93). -/

namespace Sys2Proof

/-- A decoded command. The operands of ABSORBk are its message bytes b0..b(k-1), lane 0 first (R92).
Every value of an operand is legal, so every term is well formed; what can be ill formed is a
command word (see `CmdWord.wellFormed`). -/
inductive Instr where
  /-- NOP, op 0x00 (R270). -/
  | nop
  /-- INIT, op 0x01 (R271). -/
  | init
  /-- ABSORB1, op 0x10 (R121). -/
  | absorb1 (b0 : Byte)
  /-- ABSORB2, op 0x11 (R122). -/
  | absorb2 (b0 b1 : Byte)
  /-- ABSORB3, op 0x12 (R123). -/
  | absorb3 (b0 b1 b2 : Byte)
  /-- ABSORB4, op 0x13 (R124). -/
  | absorb4 (b0 b1 b2 b3 : Byte)
  /-- FINAL, op 0x20 (R130). -/
  | final
deriving DecidableEq, Repr

/-- The message bytes a command carries, in message order (R92); none for NOP, INIT and FINAL. -/
def Instr.bytes : Instr → List Byte
  | .nop => []
  | .init => []
  | .absorb1 b0 => [b0]
  | .absorb2 b0 b1 => [b0, b1]
  | .absorb3 b0 b1 b2 => [b0, b1, b2]
  | .absorb4 b0 b1 b2 b3 => [b0, b1, b2, b3]
  | .final => []

/-- The mnemonic of the command's row in spec/opcode_table.json. -/
def Instr.mnemonic : Instr → String
  | .nop => "NOP"
  | .init => "INIT"
  | .absorb1 _ => "ABSORB1"
  | .absorb2 _ _ => "ABSORB2"
  | .absorb3 _ _ _ => "ABSORB3"
  | .absorb4 _ _ _ _ => "ABSORB4"
  | .final => "FINAL"

/-- The four commands that deliver message bytes. -/
def Instr.isAbsorb : Instr → Bool
  | .nop => false
  | .init => false
  | .absorb1 _ => true
  | .absorb2 _ _ => true
  | .absorb3 _ _ _ => true
  | .absorb4 _ _ _ _ => true
  | .final => false

end Sys2Proof
end

