-- ==== Sys2Proof/WellFormed.lean ====
section
/-! DEFINITION. Which command words are well formed: the match and mask table of
spec/30_encoding.md R93, read as a table. The decoder (Decode.lean) is written from the decode
function of R94 instead, so that the two readings can be held against each other. -/

namespace Sys2Proof

/-- One row of the opcode map (R93): a word `w` is the row's command iff `(w AND mask) = pattern`. -/
structure OpcodeRow where
  mnemonic : String
  pattern : CmdWord
  mask : CmdWord
deriving DecidableEq, Repr

/-- The test a row puts a word to (R93). -/
def OpcodeRow.accepts (r : OpcodeRow) (w : CmdWord) : Bool :=
  w &&& r.mask == r.pattern

/-- The seven rows of R93. -/
def opcodeMap : List OpcodeRow :=
  [ ⟨"NOP", 0x0000000000, 0xFFFFFFFFFF⟩,
    ⟨"INIT", 0x0100000000, 0xFFFFFFFFFF⟩,
    ⟨"ABSORB1", 0x1000000000, 0xFF00FFFFFF⟩,
    ⟨"ABSORB2", 0x1100000000, 0xFF0000FFFF⟩,
    ⟨"ABSORB3", 0x1200000000, 0xFF000000FF⟩,
    ⟨"ABSORB4", 0x1300000000, 0xFF00000000⟩,
    ⟨"FINAL", 0x2000000000, 0xFFFFFFFFFF⟩ ]

/-- A word is well formed when some row accepts it; "Any word matching no row is illegal" (R93). -/
def CmdWord.wellFormed (w : CmdWord) : Bool :=
  opcodeMap.any (fun r => r.accepts w)

end Sys2Proof
end

