-- ==== Sys2Proof/Decode.lean ====
section
/-! DEFINITION. The decoder, total on every 40-bit word (spec/30_encoding.md R94), and the encoder,
written from the layout and the patterns of R91 to R93. -/

namespace Sys2Proof

open Sys2Proof.Machine (opField argField lane be32)

/-- Why a word is illegal: the three cases R95 lists. The spec knows only ILLEGAL; the name of the
case is kept for the reader and has no effect on the machine (log entry 10, DESIGN CHOICE). -/
inductive Illegal where
  /-- An opcode other than 0x00, 0x01, 0x10..0x13 and 0x20. -/
  | undefinedOpcode
  /-- NOP, INIT or FINAL with arg ≠ 0. -/
  | nonzeroArgument
  /-- ABSORB1, ABSORB2 or ABSORB3 with a nonzero reserved lane. -/
  | nonzeroReservedLane
deriving DecidableEq, Repr

/-- The result of R94's `decode`. -/
inductive Decoded where
  | command (i : Instr)
  | illegal (why : Illegal)
deriving DecidableEq, Repr

/-- R94. It reads only the word, never the state. -/
def decode (w : CmdWord) : Decoded :=
  let op := opField w
  let arg := argField w
  if op = 0x00 then
    if arg = 0 then .command .nop else .illegal .nonzeroArgument
  else if op = 0x01 then
    if arg = 0 then .command .init else .illegal .nonzeroArgument
  else if op = 0x10 then
    if arg.extractLsb' 0 24 = 0 then .command (.absorb1 (lane arg 0))
    else .illegal .nonzeroReservedLane
  else if op = 0x11 then
    if arg.extractLsb' 0 16 = 0 then .command (.absorb2 (lane arg 0) (lane arg 1))
    else .illegal .nonzeroReservedLane
  else if op = 0x12 then
    if arg.extractLsb' 0 8 = 0 then
      .command (.absorb3 (lane arg 0) (lane arg 1) (lane arg 2))
    else .illegal .nonzeroReservedLane
  else if op = 0x13 then
    .command (.absorb4 (lane arg 0) (lane arg 1) (lane arg 2) (lane arg 3))
  else if op = 0x20 then
    if arg = 0 then .command .final else .illegal .nonzeroArgument
  else .illegal .undefinedOpcode

/-- The opcode of a command (R93). -/
def Instr.op : Instr → Byte
  | .nop => 0x00
  | .init => 0x01
  | .absorb1 _ => 0x10
  | .absorb2 _ _ => 0x11
  | .absorb3 _ _ _ => 0x12
  | .absorb4 _ _ _ _ => 0x13
  | .final => 0x20

/-- The argument of a command: message bytes in lanes 0..k-1, zero in every other lane (R92). -/
def Instr.arg : Instr → Word
  | .nop => 0
  | .init => 0
  | .absorb1 b0 => be32 b0 0 0 0
  | .absorb2 b0 b1 => be32 b0 b1 0 0
  | .absorb3 b0 b1 b2 => be32 b0 b1 b2 0
  | .absorb4 b0 b1 b2 b3 => be32 b0 b1 b2 b3
  | .final => 0

/-- The 40-bit word of a command: `op` in bits 39:32, `arg` in bits 31:0 (R91). -/
def encode (i : Instr) : CmdWord := i.op ++ i.arg

/-- The instruction the decoder reads from the table's number `w`, of which `nbits` bits are given
and every bit above is 0. A command is ONE 40-bit word, so bit 0 of the number is bit 0 of the word
(R8, R91; log entry 9). A number that does not fit 40 bits is no command word. -/
def decodeTableWord (nbits w : Nat) : Option Instr :=
  if w % 2 ^ nbits < 2 ^ 40 then
    match decode (BitVec.ofNat 40 (w % 2 ^ nbits)) with
    | .command i => some i
    | .illegal _ => none
  else none

end Sys2Proof
end

