-- ==== Sys2Proof/Machine/Absorb.lean ====
section
/-! DEFINITION. ABSORB1 to ABSORB4 (spec/40_padding_and_blocks.md R121 to R124). The opcode and the
argument an error records are those of the command's own word (R301; log entry 11). -/

namespace Sys2Proof.Machine

/-- ABSORB1 (R121). -/
def execAbsorb1 (b0 : Byte) (s : State) : Host.Outcome State Fault Refusal :=
  whenReady (fun e => e.absorbBytes [b0] 0x10 (be32 b0 0 0 0)) s

/-- ABSORB2 (R122). -/
def execAbsorb2 (b0 b1 : Byte) (s : State) : Host.Outcome State Fault Refusal :=
  whenReady (fun e => e.absorbBytes [b0, b1] 0x11 (be32 b0 b1 0 0)) s

/-- ABSORB3 (R123). -/
def execAbsorb3 (b0 b1 b2 : Byte) (s : State) : Host.Outcome State Fault Refusal :=
  whenReady (fun e => e.absorbBytes [b0, b1, b2] 0x12 (be32 b0 b1 b2 0)) s

/-- ABSORB4 (R124). -/
def execAbsorb4 (b0 b1 b2 b3 : Byte) (s : State) : Host.Outcome State Fault Refusal :=
  whenReady (fun e => e.absorbBytes [b0, b1, b2, b3] 0x13 (be32 b0 b1 b2 b3)) s

end Sys2Proof.Machine
end

