-- ==== Sys2Proof/Machine/Control.lean ====
section
/-! DEFINITION. The control commands NOP and INIT (spec/44_control.md R270, R271). -/

namespace Sys2Proof.Machine

/-- NOP: no effect in READY, DONE and ERROR (R270). -/
def execNop (s : State) : Host.Outcome State Fault Refusal :=
  whenReady (fun e => e) s

/-- INIT: every element to the value R271 gives it, which is its reset value (R341). -/
def Engine.init (_ : Engine) : Engine where
  h := #v[0x67452301, 0xEFCDAB89, 0x98BADCFE, 0x10325476, 0xC3D2E1F0]
  x := Vector.replicate 5 0
  w := Vector.replicate 16 0
  buf := Vector.replicate 64 0x00
  fill := 0
  nbytes := 0
  t := 0
  next := .resume
  mode := .ready
  errIllegal := false
  errSeq := false
  errTooLarge := false
  errOp := 0x00
  errArg := 0x00000000

/-- INIT: legal in READY, DONE and ERROR (R271). -/
def execInit (s : State) : Host.Outcome State Fault Refusal :=
  whenReady Engine.init s

end Sys2Proof.Machine
end

