-- ==== Sys2Proof/Machine/Padding.lean ====
section
/-! DEFINITION. The padding unit (spec/40_padding_and_blocks.md R130): what FINAL writes into the block
buffer. -/

namespace Sys2Proof.Machine

/-- L, the message length in bits, 64 bits wide: `NBYTES * 8` (R130). It is exact for
NBYTES ≤ 2^61 - 1 (R26; log entry 15). -/
def Engine.bitLength (e : Engine) : BitVec 64 := e.nbytes * 8

/-- `BUF[f] <- 0x80` and `BUF[j] <- 0x00` for j = f+1 .. 63, with f = FILL (R130). -/
def Engine.writeFlag (e : Engine) : Engine :=
  { e with
    buf := Vector.ofFn fun j : Fin 64 =>
      if j.val < e.fill.toNat then e.bufByte j.val
      else if j.val = e.fill.toNat then 0x80 else 0x00 }

/-- `BUF[56+i] <- be64bytes(L)[i]` for i = 0..7 (R63, R130). -/
def Engine.writeLength (e : Engine) (l : BitVec 64) : Engine :=
  { e with
    buf := Vector.ofFn fun j : Fin 64 =>
      if j.val < 56 then e.bufByte j.val else be64Byte l (j.val - 56) }

/-- `BUF[j] <- 0x00` for j = 0..55 (R130, the second padding block). -/
def Engine.clearData (e : Engine) : Engine :=
  { e with
    buf := Vector.ofFn fun j : Fin 64 => if j.val < 56 then 0x00 else e.bufByte j.val }

/-- FINAL in an open message (R130): one final block for FILL ≤ 55, else two, the second of which is
built in BUF once the first has started. -/
def Engine.pad (e : Engine) : Engine :=
  let l := e.bitLength
  let p := { e.writeFlag with fill := 0 }
  if e.fill.toNat ≤ 55 then
    Engine.blockStart { p.writeLength l with next := .finish }
  else
    (Engine.blockStart { p with next := .second }).clearData.writeLength l

end Sys2Proof.Machine
end

