-- ==== Sys2Proof/Machine/Final.lean ====
section
/-! DEFINITION. FINAL (spec/40_padding_and_blocks.md R130). -/

namespace Sys2Proof.Machine

/-- FINAL on the engine: SEQ in DONE and ERROR (R304), else padding and the last block or blocks.
Its argument is 0, so 0 is what SEQ records. -/
def Engine.final (e : Engine) : Engine :=
  if e.closed then e.raise .seq 0x20 0 else e.pad

/-- FINAL (R130). -/
def execFinal (s : State) : Host.Outcome State Fault Refusal :=
  whenReady Engine.final s

end Sys2Proof.Machine
end

