-- ==== Sys2Proof/Machine/Dispatch.lean ====
section
/-! DEFINITION. One arm for each command (spec/44_control.md R275). -/

namespace Sys2Proof.Machine

/-- The effect of a decoded command in a state (R275). -/
def exec (i : Instr) (s : State) : Host.Outcome State Fault Refusal :=
  match i with
  | .nop => Sys2Proof.Machine.execNop s
  | .init => Sys2Proof.Machine.execInit s
  | .absorb1 b0 => Sys2Proof.Machine.execAbsorb1 b0 s
  | .absorb2 b0 b1 => Sys2Proof.Machine.execAbsorb2 b0 b1 s
  | .absorb3 b0 b1 b2 => Sys2Proof.Machine.execAbsorb3 b0 b1 b2 s
  | .absorb4 b0 b1 b2 b3 => Sys2Proof.Machine.execAbsorb4 b0 b1 b2 b3 s
  | .final => Sys2Proof.Machine.execFinal s

end Sys2Proof.Machine
end

