-- ==== Sys2Proof/Machine/Serializer.lean ====
section
/-! DEFINITION. The hex serializer, combinational on H (spec/43_serializer_and_reads.md R240 to R243). -/

namespace Sys2Proof.Machine

/-- `HEXCHAR(n)`: 0x30 + n for n ≤ 9, 0x57 + n for n ≥ 10 (R240). -/
def hexChar (n : BitVec 4) : Byte :=
  if n.toNat ≤ 9 then 0x30 + n.setWidth 8 else 0x57 + n.setWidth 8

/-- Nibble j (j = 0..7) of a word, most significant first: bits 31-4j : 28-4j (R241). -/
def nibble (v : Word) (j : Nat) : BitVec 4 := v.extractLsb' (28 - 4 * j) 4

/-- Character i (i = 0..39) of the digest text; 40 or more has no character and reads as that of
i mod 40 (R241). -/
def Engine.hexAt (e : Engine) (i : Nat) : Byte :=
  hexChar (nibble (e.h[i % 40 / 8]'(by omega)) (i % 8))

/-- HEX j (j = 0..9): four characters, first most significant (R242). -/
def Engine.hexReg (e : Engine) (j : Nat) : Word :=
  be32 (e.hexAt (4 * j)) (e.hexAt (4 * j + 1)) (e.hexAt (4 * j + 2)) (e.hexAt (4 * j + 3))

/-- The digest text c[0] .. c[39] (R243). -/
def Engine.hexText (e : Engine) : List Byte := (List.range 40).map e.hexAt

end Sys2Proof.Machine
end

