-- ==== Sys2Proof/Machine/ReadPort.lean ====
section
/-! DEFINITION. The read port: the register map and `RegRead` (spec/20_memory.md R70,
spec/43_serializer_and_reads.md R250), and the registers' names. -/

namespace Sys2Proof.Machine

/-- `RegRead(idx)` (R250), computed from the current state; every index is legal (R98). -/
def Engine.regRead (e : Engine) (idx : BitVec 8) : Word :=
  let n := idx.toNat
  if n = 0x00 then e.status
  else if n = 0x01 then e.nbytes.extractLsb' 0 32
  else if n = 0x02 then e.nbytes.extractLsb' 32 32
  else if n = 0x03 then e.fill.setWidth 32
  else if n = 0x04 then e.seq
  else if n = 0x05 then e.errOp.setWidth 32
  else if n = 0x06 then e.errArg
  else if h : 0x08 ≤ n ∧ n ≤ 0x0C then e.h[n - 0x08]'(by omega)
  else if h : 0x10 ≤ n ∧ n ≤ 0x14 then e.x[n - 0x10]'(by omega)
  else if 0x20 ≤ n ∧ n ≤ 0x2F then e.wAt (n - 0x20)
  else if 0x30 ≤ n ∧ n ≤ 0x3F then e.blockWord (n - 0x30)
  else if 0x40 ≤ n ∧ n ≤ 0x49 then e.hexReg (n - 0x40)
  else 0

/-- The names of the read-port map (R70). -/
inductive RegName where
  | status
  | nbytesLo
  | nbytesHi
  | fill
  | seq
  | errOp
  | errArg
  | h (i : Fin 5)
  | x (i : Fin 5)
  | w (i : Fin 16)
  | bufw (i : Fin 16)
  | hex (j : Fin 10)
deriving DecidableEq, Repr

/-- The index of a named register (R70). -/
def RegName.index : RegName → BitVec 8
  | .status => 0x00
  | .nbytesLo => 0x01
  | .nbytesHi => 0x02
  | .fill => 0x03
  | .seq => 0x04
  | .errOp => 0x05
  | .errArg => 0x06
  | .h i => 0x08 + BitVec.ofNat 8 i.val
  | .x i => 0x10 + BitVec.ofNat 8 i.val
  | .w i => 0x20 + BitVec.ofNat 8 i.val
  | .bufw i => 0x30 + BitVec.ofNat 8 i.val
  | .hex j => 0x40 + BitVec.ofNat 8 j.val

end Sys2Proof.Machine
end

