-- ==== Sys2Proof/Machine/Port.lean ====
section
/-! DEFINITION. The command port, the read port and reset as actions on the whole machine
(spec/30_encoding.md R90, spec/43_serializer_and_reads.md R251, spec/70_reset_and_hazards.md R340,
R344), and the turn of the engine's side (R200). -/

namespace Sys2Proof.Machine

/-- The state with the rest of the agenda. -/
def State.withAgenda (s : State) (agenda : List Action) : State :=
  { s with host := { s.host with agenda := agenda } }

/-- The state with a word, or none, on the command port. -/
def State.withCmdWord (s : State) (w : Option CmdWord) : State :=
  { s with host := { s.host with cmdWord := w } }

/-- The port takes word `w` (R90): the word leaves the port, is decoded and executed as one atomic
step. An illegal word raises Error(ILLEGAL) with its own op and arg (R95, R303). -/
def takeWord (w : CmdWord) (s : State) : Host.Outcome State Fault Refusal :=
  let s := s.withCmdWord none
  match decode w with
  | .command i => exec i s
  | .illegal _ =>
    .next { s with engine := s.engine.raise .illegal (opField w) (argField w) }

/-- The turn of the engine's side: an engine step while BUSY (R200); otherwise the port takes the
word the host holds, if any; otherwise nothing, "it takes no steps and simply waits" (R322). -/
def engineTurn (s : State) : Host.Outcome State Fault Refusal :=
  if s.engine.mode = .busy then .next { s with engine := s.engine.step }
  else
    match s.host.cmdWord with
    | some w => takeWord w s
    | none => .next s

/-- The host issues `w` on a free port: taken at once where CMD_READY = 1, else held (R90). -/
def issueWord (w : CmdWord) (s : State) : Host.Outcome State Fault Refusal :=
  if s.engine.mode = .busy then .next (s.withCmdWord (some w)) else takeWord w s

/-- A host read (R250, R251): only the value returned is new; the engine is unchanged (R69). -/
def readReg (idx : BitVec 8) (s : State) : State :=
  { s with host := { s.host with readData := some (s.engine.regRead idx) } }

/-- RESET (R340), in any state; a word the port has not taken is discarded (R344). The agenda and the
value of the latest read stay (log entry 13). -/
def resetEngine (s : State) : State :=
  { s.withCmdWord none with engine := Engine.reset }

/-- One move of the machine, by the next entry of the agenda (R73). Reads and reset are never blocked
(R251, R340). A host that already holds a word cannot put another on the port, and a `sync` lasts
while a word is held (R90, R99); until then the engine's side moves and the agenda waits (log entry
2). WAIT reads STATUS, and goes round its loop after a turn of the engine while STATUS shows BUSY
(R100; log entry 5). -/
def move (s : State) : Host.Outcome State Fault Refusal :=
  match s.host.agenda with
  | [] => engineTurn s
  | .reset :: rest => .next (resetEngine (s.withAgenda rest))
  | .engine :: rest => engineTurn (s.withAgenda rest)
  | .issue w :: rest =>
    if s.host.cmdWord.isSome then engineTurn s else issueWord w (s.withAgenda rest)
  | .sync :: rest =>
    if s.host.cmdWord.isSome then engineTurn s else .next (s.withAgenda rest)
  | .read idx :: rest => .next (readReg idx (s.withAgenda rest))
  | .wait :: rest =>
    if s.engine.mode = .busy then
      .next (readReg 0x00 (s.withAgenda (.engine :: .wait :: rest)))
    else .next (readReg 0x00 (s.withAgenda rest))

end Sys2Proof.Machine
end

