-- ==== Sys2Proof/Machine/Step.lean ====
section
/-! DEFINITION. One step of the machine, and how a command word is put where the next step takes it. -/

namespace Sys2Proof.Machine

/-- One atomic action of the interleaving (spec/20_memory.md R73). -/
def step (s : State) : Host.Outcome State Fault Refusal := move s

/-- `s` with the command word `w` held on the command port and the engine's side to move next, so
that in a state with CMD_READY = 1 the very next step takes and runs exactly that word (R90; log
entry 9). Nothing else changes; while BUSY the word waits (R350). -/
def State.withFetchWord (s : State) (nbits w : Nat) : State :=
  (s.withCmdWord (some (BitVec.ofNat 40 (w % 2 ^ nbits)))).withAgenda (.engine :: s.host.agenda)

end Sys2Proof.Machine
end

