-- ==== Sys2Proof/Machine/Platform.lean ====
section
/-! DEFINITION. A platform of `n` engines, `n` being the open parameter N_ENGINES (spec/00_scope.md R7):
each instance has its own state and its own ports, and instances share nothing (spec/20_memory.md
R80, spec/60_exceptions.md R320; log entry 14). -/

namespace Sys2Proof.Machine

/-- The states of N_ENGINES = n instances (R320). -/
abbrev Platform (n : Nat) := Vector State n

/-- Every instance after reset. -/
def Platform.reset (n : Nat) : Platform n := Vector.replicate n State.reset

/-- Instance `i` makes its next move; which instance moves is unconstrained (R80). -/
def Platform.act {n : Nat} (p : Platform n) (i : Fin n) :
    Host.Outcome (Platform n) Fault Refusal :=
  match step p[i] with
  | .next s => .next (p.set i.val s i.isLt)
  | .fault r => .fault r
  | .refused r => .refused r

end Sys2Proof.Machine
end

