-- ==== Sys2Proof/Machine/Assembler.lean ====
section
/-! DEFINITION. Host programs, one action a line, and the pseudo-instructions (spec/30_encoding.md R99,
R100): what each line puts on the agenda. The lines are abstract: their text form is not modelled
(log entry 12). -/

namespace Sys2Proof.Machine

/-- A byte operand (R99): a number, decimal or hex, or a character literal. -/
inductive ByteOperand where
  | number (n : Nat)
  | char (c : Char)
deriving DecidableEq, Repr

/-- The byte of an operand: a number 0..255, or the code of a printable ASCII character (R99). -/
def ByteOperand.value : ByteOperand → Option Byte
  | .number n => if n ≤ 255 then some (BitVec.ofNat 8 n) else none
  | .char c => if 0x20 ≤ c.toNat ∧ c.toNat ≤ 0x7E then some (BitVec.ofNat 8 c.toNat) else none

/-- `ABSORB` with one to four operands is ABSORBk, k their number (R99). -/
def absorbOf : List Byte → Option Instr
  | [b0] => some (.absorb1 b0)
  | [b0, b1] => some (.absorb2 b0 b1)
  | [b0, b1, b2] => some (.absorb3 b0 b1 b2)
  | [b0, b1, b2, b3] => some (.absorb4 b0 b1 b2 b3)
  | _ => none

/-- `ABSORBS s` (R100): groups of four bytes in order, and one shorter group for the rest. -/
def absorbsOf : List Byte → List Instr
  | b0 :: b1 :: b2 :: b3 :: rest => .absorb4 b0 b1 b2 b3 :: absorbsOf rest
  | [b0, b1, b2] => [.absorb3 b0 b1 b2]
  | [b0, b1] => [.absorb2 b0 b1]
  | [b0] => [.absorb1 b0]
  | [] => []

/-- A line of a host program (R99, R100). -/
inductive HostLine where
  | nop
  | init
  /-- `ABSORB b0, ...`. -/
  | absorb (operands : List ByteOperand)
  /-- `ABSORBk b0, ...`: the operand count must equal k. -/
  | absorbK (k : Nat) (operands : List ByteOperand)
  | final
  /-- `.cmd`: a raw 40-bit word, which may be illegal. -/
  | cmd (w : CmdWord)
  /-- `READ name`. -/
  | readName (r : RegName)
  /-- `READ 0xNN`. -/
  | readIndex (idx : BitVec 8)
  | reset
  | wait
  | absorbs (s : List Byte)
  | hash (s : List Byte)
  | digest
deriving DecidableEq, Repr

/-- "Issuing a command blocks the host until `CMD_READY = 1`" (R99): the word goes on the port and
the host goes on once it has been taken. -/
def issueWordActions (w : CmdWord) : List Action := [.issue w, .sync]

/-- The host issues a command (R99). -/
def issueActions (i : Instr) : List Action := issueWordActions (encode i)

/-- `HASH s`: INIT, ABSORBS s, FINAL, WAIT (R100). -/
def hashActions (s : List Byte) : List Action :=
  issueActions .init ++ (absorbsOf s).flatMap issueActions ++ issueActions .final ++ [.wait]

/-- `DIGEST`: READ HEX0 .. READ HEX9 (R100). -/
def digestActions : List Action :=
  (List.finRange 10).map fun j => .read (RegName.hex j).index

/-- The actions of the host in a line, with no turn of the engine between them or around them but those
WAIT gives it: one interleaving of the many that R73 and R252 admit (DESIGN CHOICE, log entry 19; the
others are those of `Interleaves`). None for a line that is not well formed (an operand that is no byte, an
operand count that is not 1 to 4 or not k). -/
def HostLine.actions : HostLine → Option (List Action)
  | .nop => some (issueActions .nop)
  | .init => some (issueActions .init)
  | .absorb operands => do
    let bs ← operands.mapM ByteOperand.value
    let i ← absorbOf bs
    pure (issueActions i)
  | .absorbK k operands => do
    let bs ← operands.mapM ByteOperand.value
    let i ← absorbOf bs
    if bs.length = k then pure (issueActions i) else none
  | .final => some (issueActions .final)
  | .cmd w => some (issueWordActions w)
  | .readName r => some [.read r.index]
  | .readIndex idx => some [.read idx]
  | .reset => some [.reset]
  | .wait => some [.wait]
  | .absorbs s => some ((absorbsOf s).flatMap issueActions)
  | .hash s => some (hashActions s)
  | .digest => some digestActions

/-- A host program: the actions of its lines in order, or none if a line is not well formed. How many
turns of the engine lie between two lines is free (R73; spec/93_implementation_defined.md U3); here there are none
(DESIGN CHOICE, log entry 19). -/
def assemble (lines : List HostLine) : Option (List Action) :=
  (lines.mapM HostLine.actions).map List.flatten

/-- `agenda` is one of the interleavings of the host's `actions` with the engine: the same actions in
the same order, with any number of turns of the engine before, between and after them (R73, R252). -/
def Interleaves (actions agenda : List Action) : Prop :=
  agenda.filter (· ≠ .engine) = actions

end Sys2Proof.Machine
end

