-- ==== Sys2Proof/Source.lean ====
section
/-! DEFINITION. The functions of the source on whole messages, as the spec quotes them: `pad`, `chunk`,
`expand`, the compression function and `digest` (spec/40_padding_and_blocks.md R131, R133;
spec/42_schedule_and_round.md R201, R202, R209, R210; spec/43_serializer_and_reads.md R241). They have no state, no
steps and no window of 16 words; the claims hold the engine against them. -/

namespace Sys2Proof.Source

open Sys2Proof.Machine

/-- A 64-byte block of the padded buffer. -/
abbrev Block := Vector Byte 64

/-- `Z(n) = (64 - ((n + 9) mod 64)) mod 64`, the length of the zero run (R131). -/
def zeroRun (n : Nat) : Nat := (64 - (n + 9) % 64) % 64

/-- `pad(m) = m ‖ 0x80 ‖ 0x00^Z(n) ‖ be64bytes(8n)` (R133). -/
def pad (m : List Byte) : List Byte :=
  m ++ 0x80 :: List.replicate (zeroRun m.length) 0x00 ++ be64bytes (BitVec.ofNat 64 (8 * m.length))

/-- Block i of a padded buffer: bytes 64i .. 64i+63. -/
def blockAt (p : List Byte) (i : Nat) : Block :=
  Vector.ofFn fun j : Fin 64 => p.getD (64 * i + j.val) 0

/-- `chunk`: consecutive, non-overlapping 64-byte blocks, in order (R133). -/
def chunk (p : List Byte) : List Block := (List.range (p.length / 64)).map (blockAt p)

/-- Word i of a block (i = 0..15), 4 consecutive bytes, big-endian (R62). -/
def blockWord (b : Block) (i : Nat) : Word :=
  be32 (b[4 * i % 64]'(Nat.mod_lt _ (by decide))) (b[(4 * i + 1) % 64]'(Nat.mod_lt _ (by decide)))
    (b[(4 * i + 2) % 64]'(Nat.mod_lt _ (by decide))) (b[(4 * i + 3) % 64]'(Nat.mod_lt _ (by decide)))

/-- The first 16 + n words of the expansion: `w[t] = rotate_left(w[t-3] XOR w[t-8] XOR w[t-14] XOR
w[t-16], 1)` for t ≥ 16 (R201, quoting the source). -/
def expandFirst (b : Block) : Nat → List Word
  | 0 => (List.range 16).map (blockWord b)
  | n + 1 =>
    let ws := expandFirst b n
    ws ++ [rotl (xor4 (ws.getD (n + 13) 0) (ws.getD (n + 8) 0) (ws.getD (n + 2) 0) (ws.getD n 0)) 1]

/-- `w[0..79]`, the 80 words of a block (R202). -/
def expand (b : Block) : List Word := expandFirst b 64

/-- One round of the source: `temp`, then `e=d; d=c; c=rotate_left(b,30); b=a; a=temp` (R203, R204). -/
def round (v : Vector Word 5) (t : Nat) (wt : Word) : Vector Word 5 :=
  #v[rotl v[0] 5 + logical t v[1] v[2] v[3] + v[4] + wt + roundK t,
     v[0], rotl v[1] 30, v[2], v[3]]

/-- The working variables after the first n rounds of a block, from Hash State h. -/
def rounds (h : Vector Word 5) (b : Block) (n : Nat) : Vector Word 5 :=
  (List.range n).foldl (fun v t => round v t ((expand b).getD t 0)) h

/-- Element-wise addition mod 2^32 (R205). -/
def addWords (h v : Vector Word 5) : Vector Word 5 :=
  #v[h[0] + v[0], h[1] + v[1], h[2] + v[2], h[3] + v[3], h[4] + v[4]]

/-- `Compress(h, M)`: 80 rounds, then the addition into the Hash State (R209). -/
def compress (h : Vector Word 5) (b : Block) : Vector Word 5 := addWords h (rounds h b 80)

/-- `fold(Compress, IV, chunk(pad(m)))` (R210). -/
def digest (m : List Byte) : Vector Word 5 := (chunk (pad m)).foldl compress Config.iv

/-- The digit of a nibble: `0`..`9`, `a`..`f` as ASCII codes (R240), written as a table. -/
def digits : Vector Byte 16 :=
  #v[0x30, 0x31, 0x32, 0x33, 0x34, 0x35, 0x36, 0x37, 0x38, 0x39, 0x61, 0x62, 0x63, 0x64, 0x65, 0x66]

/-- The raw digest, the 160-bit value `H[0] ‖ H[1] ‖ H[2] ‖ H[3] ‖ H[4]` (R245). -/
def raw (h : Vector Word 5) : BitVec 160 := h[0] ++ h[1] ++ h[2] ++ h[3] ++ h[4]

/-- The 40 lowercase hex digits of a 160-bit value, most significant first (R245). -/
def hexDigits (v : BitVec 160) : List Byte :=
  (List.range 40).map fun i => digits[(v.extractLsb' (156 - 4 * i) 4).toNat]'(BitVec.isLt _)

end Sys2Proof.Source
end

