-- ==== Sys2Proof/Safety.lean ====
section
/-! DEFINITION. The terms of the claims: the legal values and invariants of the engine's state
(spec/10_state.md R39, R40), the effect of a command on the engine (spec/44_control.md R275), runs of the machine, and
what a host's actions deliver to the open message (spec/42_schedule_and_round.md R210). -/

namespace Sys2Proof.Machine

/-- The legal values of R39 and the six invariants of R40. NEXT ≠ 3 and FILL ≤ 63 hold by type. -/
structure Engine.Inv (e : Engine) : Prop where
  /-- T ≤ 80 (R27, R39; R40 item 2). -/
  roundBound : e.t.toNat ≤ 80
  /-- NBYTES ≤ MAX_BYTES (R26, R39). -/
  lengthBound : e.nbytes.toNat ≤ Config.maxBytes
  /-- R40 item 1. -/
  idleSequencer : e.mode ≠ .busy → e.t = 0 ∧ e.next = .resume
  /-- R40 item 3. -/
  openFill : (e.mode = .ready ∨ e.mode = .error ∨ (e.mode = .busy ∧ e.next = .resume)) →
    e.fill.toNat = e.nbytes.toNat % 64
  /-- R40 item 4. -/
  closedFill : (e.mode = .done ∨ (e.mode = .busy ∧ e.next ≠ .resume)) → e.fill = 0
  /-- R40 item 5. -/
  errorFlag : e.mode = .error → e.errTooLarge = true
  /-- R40 item 6. -/
  captureEmpty : e.anyError = false → e.errOp = 0 ∧ e.errArg = 0

/-- What a taken command does to the engine, by R275. -/
def effect : Instr → Engine → Engine
  | .nop => fun e => e
  | .init => Engine.init
  | .absorb1 b0 => fun e => e.absorbBytes [b0] (Instr.absorb1 b0).op (Instr.absorb1 b0).arg
  | .absorb2 b0 b1 =>
    fun e => e.absorbBytes [b0, b1] (Instr.absorb2 b0 b1).op (Instr.absorb2 b0 b1).arg
  | .absorb3 b0 b1 b2 =>
    fun e => e.absorbBytes [b0, b1, b2] (Instr.absorb3 b0 b1 b2).op (Instr.absorb3 b0 b1 b2).arg
  | .absorb4 b0 b1 b2 b3 =>
    fun e => e.absorbBytes [b0, b1, b2, b3] (Instr.absorb4 b0 b1 b2 b3).op
      (Instr.absorb4 b0 b1 b2 b3).arg
  | .final => Engine.final

/-- What a word the port takes does to the engine (R95, R275). -/
def wordEffect (w : CmdWord) (e : Engine) : Engine :=
  match decode w with
  | .command i => effect i e
  | .illegal _ => e.raise .illegal (opField w) (argField w)

/-- `n` engine steps in a row (R200). -/
def Engine.steps (n : Nat) (e : Engine) : Engine := Engine.step^[n] e

/-- The position of BUF that byte i of an ABSORB goes to: FILL, FILL + 1, ..., round the block
boundary (R61, R126). -/
def Engine.absorbPos (e : Engine) (i : Nat) : Nat := (e.fill.toNat + i) % 64

/-- The block an ABSORB completes: the bytes in BUF before FILL, then message bytes up to position 63
(R126). -/
def Engine.completedBlock (e : Engine) (bs : List Byte) : Source.Block :=
  Vector.ofFn fun j : Fin 64 =>
    if j.val < e.fill.toNat then e.bufByte j.val else bs.getD (j.val - e.fill.toNat) 0

/-- The block with the flag byte at position `f` after the first `f` bytes of BUF, and zeros after it:
the first padding block of FINAL when there are two (R130). -/
def Engine.flaggedBlock (e : Engine) (f : Nat) : Source.Block :=
  Vector.ofFn fun j : Fin 64 =>
    if j.val < f then e.bufByte j.val else if j.val = f then 0x80 else 0x00

/-- BUF as one block. -/
def Engine.block (e : Engine) : Source.Block := e.buf

/-- Engine steps left until MODE ≠ BUSY: the rest of this block, and a whole block more if NEXT is
SECOND (R207). -/
def Engine.stepsLeft (e : Engine) : Nat :=
  if e.mode = .busy then (80 - e.t.toNat) + 1 + (if e.next = .second then 81 else 0) else 0

/-- The word the command port takes in the next step, if any (R90): only with CMD_READY = 1, and then
the held word when the engine's side moves, or the word just issued on a free port. -/
def State.takes (s : State) : Option CmdWord :=
  if s.engine.mode = .busy then none
  else
    match s.host.agenda with
    | [] => s.host.cmdWord
    | .engine :: _ => s.host.cmdWord
    | .sync :: _ => s.host.cmdWord
    | .issue w :: _ => some (s.host.cmdWord.getD w)
    | .read _ :: _ => none
    | .reset :: _ => none
    | .wait :: _ => none

/-- The next step is a reset (R340). -/
def State.resets (s : State) : Bool := s.host.agenda.head? == some .reset

/-- The engine steps in the next step: it is BUSY and its side has the turn (R200). -/
def State.engineSteps (s : State) : Bool :=
  s.engine.mode == .busy &&
    (match s.host.agenda with
    | [] => true
    | .engine :: _ => true
    | .sync :: _ => s.host.cmdWord.isSome
    | .issue _ :: _ => s.host.cmdWord.isSome
    | .read _ :: _ => false
    | .reset :: _ => false
    | .wait :: _ => false)

/-- The next step starts a message over: a reset, or the port takes INIT (R309). -/
def State.restarts (s : State) : Prop :=
  s.resets = true ∨ s.takes = some (encode .init)

/-- The machine gets from `s` to `t` in some number of steps. -/
def Reaches (s t : State) : Prop := ∃ k, Host.Core.run core k s = .next t

/-- The message bytes an action of the host delivers: those of a legal ABSORBk (R92). -/
def Action.delivers : Action → List Byte
  | .issue w =>
    match decode w with
    | .command i => i.bytes
    | .illegal _ => []
  | .sync => []
  | .read _ => []
  | .reset => []
  | .wait => []
  | .engine => []

/-- An action that may stand between INIT and FINAL of one message (R210): anything but a reset, an
INIT or a FINAL. -/
def Action.withinMessage : Action → Bool
  | .issue w =>
    match decode w with
    | .command .init => false
    | .command .final => false
    | .command _ => true
    | .illegal _ => true
  | .sync => true
  | .read _ => true
  | .reset => false
  | .wait => true
  | .engine => true

/-- An action that puts an illegal word on the command port (R95). -/
def Action.isIllegal : Action → Bool
  | .issue w =>
    match decode w with
    | .command _ => false
    | .illegal _ => true
  | .sync => false
  | .read _ => false
  | .reset => false
  | .wait => false
  | .engine => false

end Sys2Proof.Machine
end

