-- ==== Sys2Proof/Certificates/Slice0/Obligations.lean ====
section
/-! DEFINITION. The statements for the provers, from the numbered rules of spec/ file by file. Each
docstring names the rules. -/

open Sys2Proof Sys2Proof.Machine

/-! ### Encoding (spec/30_encoding.md) -/

/-- R91 to R94: every command, with every value of its bytes, is read back from its own word. -/
def Obligations.DecodeReadsBackEveryCommand : Prop :=
  ∀ i : Instr, decode (encode i) = .command i

/-- R91 to R94: a word that decodes to a command is that command's word, so no word is taken for
another. -/
def Obligations.EncodeReadsBackEveryLegalWord : Prop :=
  ∀ (w : CmdWord) (i : Instr), decode w = .command i → encode i = w

/-- R93: the decode function of R94 and the match and mask table agree on every 40-bit word; a word
no row accepts is illegal; no two rows overlap. -/
def Obligations.DecodeAgreesWithOpcodeMap : Prop :=
  (∀ (w : CmdWord) (r : OpcodeRow), r ∈ opcodeMap →
    (w &&& r.mask = r.pattern ↔ ∃ i, decode w = .command i ∧ i.mnemonic = r.mnemonic)) ∧
  (∀ w : CmdWord, (∃ why, decode w = .illegal why) ↔ ∀ r ∈ opcodeMap, w &&& r.mask ≠ r.pattern) ∧
  (∀ (w : CmdWord) (r r' : OpcodeRow), r ∈ opcodeMap → r' ∈ opcodeMap →
    w &&& r.mask = r.pattern → w &&& r'.mask = r'.pattern → r = r')

/-- R95: the illegal words are exactly those of its three cases, 249 opcodes are undefined, and a
port-accepted illegal word raises ILLEGAL and changes nothing but the error record. -/
def Obligations.IllegalWordsOnlyRaiseIllegal : Prop :=
  (∀ w : CmdWord, (∃ why, decode w = .illegal why) ↔
    (opField w ∉ [0x00, 0x01, 0x10, 0x11, 0x12, 0x13, 0x20]) ∨
    (opField w ∈ [0x00, 0x01, 0x20] ∧ argField w ≠ 0) ∨
    (opField w = 0x10 ∧ argField w &&& 0x00FFFFFF ≠ 0) ∨
    (opField w = 0x11 ∧ argField w &&& 0x0000FFFF ≠ 0) ∨
    (opField w = 0x12 ∧ argField w &&& 0x000000FF ≠ 0)) ∧
  ((List.range 256).filter fun n =>
    BitVec.ofNat 8 n ∉ [0x00, 0x01, 0x10, 0x11, 0x12, 0x13, 0x20]).length = 249 ∧
  (∀ (w : CmdWord) (why : Illegal) (s : State), decode w = .illegal why →
    s.engine.mode ≠ .busy →
    takeWord w s = .next { s.withCmdWord none with
      engine := { s.engine with
        errIllegal := true
        errOp := if s.engine.anyError then s.engine.errOp else opField w
        errArg := if s.engine.anyError then s.engine.errArg else argField w } })

/-- R101: the worked encodings, from the host's line to the word and from the word to its decoding. -/
def Obligations.WorkedEncodings : Prop :=
  (HostLine.absorb [.char 'a', .char 'b', .char 'c']).actions = some [.issue 0x1261626300, .sync] ∧
  (HostLine.absorb [.number 0x80]).actions = some [.issue 0x1080000000, .sync] ∧
  (HostLine.absorbK 4 [.number 0xDE, .number 0xAD, .number 0xBE, .number 0xEF]).actions =
    some [.issue 0x13DEADBEEF, .sync] ∧
  decode 0x1261626300 = .command (.absorb3 0x61 0x62 0x63) ∧
  decode 0x1080000000 = .command (.absorb1 0x80) ∧
  decode 0x13DEADBEEF = .command (.absorb4 0xDE 0xAD 0xBE 0xEF) ∧
  decode 0x1000000001 = .illegal .nonzeroReservedLane ∧
  decode 0x0200000000 = .illegal .undefinedOpcode ∧
  decode 0x1400000000 = .illegal .undefinedOpcode ∧
  decode 0x2100000000 = .illegal .undefinedOpcode

/-- R92: an ABSORBk carries lanes 0..k-1 of its argument as its bytes, lane 0 first, with k one more
than the two low bits of the opcode (R91), and its lanes k..3 are zero. -/
def Obligations.AbsorbLanesAreMessageBytes : Prop :=
  ∀ (w : CmdWord) (i : Instr), decode w = .command i → i.isAbsorb = true →
    i.bytes.length = ((opField w).extractLsb' 0 2).toNat + 1 ∧
    (∀ n (h : n < i.bytes.length), i.bytes[n] = (argField w >>> (24 - 8 * n)).setWidth 8) ∧
    (∀ n, i.bytes.length ≤ n → n < 4 → (argField w >>> (24 - 8 * n)).setWidth 8 = (0 : Byte))

/-! ### The ports (spec/30_encoding.md R90, spec/20_memory.md, spec/70_reset_and_hazards.md) -/

/-- R90: where CMD_READY = 1, a step in which the port takes word `w` is exactly `exec` of the
decoded command, with the word gone from the port: on the turn of the engine's side, on the host's
own issue to a free port, under a host that waits, and after `withFetchWord`. -/
def Obligations.StepRunsTheDecodedCommand : Prop :=
  ∀ (s : State) (w : CmdWord) (i : Instr), s.engine.mode ≠ .busy → decode w = .command i →
    (s.host.cmdWord = some w → s.host.agenda = [] → step s = exec i (s.withCmdWord none)) ∧
    (∀ rest, s.host.cmdWord = some w → s.host.agenda = .engine :: rest →
      step s = exec i ((s.withCmdWord none).withAgenda rest)) ∧
    (∀ rest, s.host.cmdWord = some w → s.host.agenda = .sync :: rest →
      step s = exec i (s.withCmdWord none)) ∧
    (∀ v rest, s.host.cmdWord = some w → s.host.agenda = .issue v :: rest →
      step s = exec i (s.withCmdWord none)) ∧
    (∀ rest, s.host.cmdWord = none → s.host.agenda = .issue w :: rest →
      step s = exec i (s.withAgenda rest)) ∧
    step (s.withFetchWord 40 w.toNat) = exec i (s.withCmdWord none)

/-- R350 (with R90): while BUSY a command has no effect, a word just issued is held, a held word
stays on the port through every engine step, and a second word is not put there. -/
def Obligations.CommandsWaitWhileBusy : Prop :=
  ∀ s : State, s.engine.mode = .busy →
    (∀ i, exec i s = .next s) ∧
    (∀ w rest, s.host.cmdWord = none → s.host.agenda = .issue w :: rest →
      step s = .next ((s.withAgenda rest).withCmdWord (some w))) ∧
    (∀ w, s.host.cmdWord = some w → s.host.agenda = [] →
      step s = .next { s with engine := s.engine.step }) ∧
    (∀ w rest, s.host.cmdWord = some w → s.host.agenda = .engine :: rest →
      step s = .next { s.withAgenda rest with engine := s.engine.step }) ∧
    (∀ w v rest, s.host.cmdWord = some w → s.host.agenda = .issue v :: rest →
      step s = .next { s with engine := s.engine.step }) ∧
    (∀ w rest, s.host.cmdWord = some w → s.host.agenda = .sync :: rest →
      step s = .next { s with engine := s.engine.step })

/-- R251 (with R69): a read that is the next action is enabled in every state, BUSY included, returns
the register's value in that state, and changes neither the engine nor the command port. The model's
choice: the read leaves the head of the agenda (log entry 1) and its value stands in `readData` (log
entry 18). -/
def Obligations.ReadChangesNothing : Prop :=
  ∀ (s : State) (idx : BitVec 8) (rest : List Action), s.host.agenda = .read idx :: rest →
    ∃ t, step s = .next t ∧ t.host.readData = some (s.engine.regRead idx) ∧
      t.engine = s.engine ∧ t.host.cmdWord = s.host.cmdWord ∧ t.host.agenda = rest

/-- R340: a reset that is the next action acts in every state, BUSY at any T included, and sets every
element to its reset value. R344: it leaves no word on the port. The model's own: reset is an action of
the agenda (log entry 1), and the later actions stay on it (log entry 13). -/
def Obligations.ResetSetsEveryElement : Prop :=
  ∀ (s : State) (rest : List Action), s.host.agenda = .reset :: rest →
    ∃ t, step s = .next t ∧ t.host.cmdWord = none ∧ t.host.agenda = rest ∧
      t.engine =
          { h := #v[0x67452301, 0xEFCDAB89, 0x98BADCFE, 0x10325476, 0xC3D2E1F0]
            x := Vector.replicate 5 0, w := Vector.replicate 16 0, buf := Vector.replicate 64 0x00
            fill := 0, nbytes := 0, t := 0, next := .resume, mode := .ready
            errIllegal := false, errSeq := false, errTooLarge := false, errOp := 0, errArg := 0 }

/-- R342: what the reset state shows. -/
def Obligations.ResetStateIsReadyAndEmpty : Prop :=
  State.reset.engine.mode = .ready ∧ State.reset.engine.CmdReady ∧
  State.reset.engine.regRead 0x00 = 0x00000000 ∧ State.reset.engine.anyError = false ∧
  State.reset.engine.nbytes = 0 ∧ State.reset.engine.fill = 0

/-- R200 (with R322): on the turn of the engine's side there is one engine step while BUSY, ROUND for
T < 80 and ACCUM otherwise, and none outside BUSY. -/
def Obligations.EngineStepsExactlyWhileBusy : Prop :=
  ∀ (s : State) (rest : List Action), s.host.agenda = .engine :: rest →
    (s.engine.mode = .busy → s.engine.t.toNat < 80 →
      step s = .next { s.withAgenda rest with engine := s.engine.round }) ∧
    (s.engine.mode = .busy → s.engine.t = 80 →
      step s = .next { s.withAgenda rest with engine := s.engine.accum }) ∧
    (s.engine.mode ≠ .busy → s.host.cmdWord = none → step s = .next (s.withAgenda rest))

/-- No behaviour of the engine is stuck and none is a fault: every step answers a next state, in every
state and with every word on the port (spec/93_implementation_defined.md, part 2; R275, R300). -/
def Obligations.EveryStepAnswersANextState : Prop :=
  ∀ s : State, ∃ t, step s = .next t

/-- R30, R73: a step changes the engine only by a reset, an engine step while BUSY, or a word the port
takes where CMD_READY = 1. -/
def Obligations.OnlyCommandsResetAndEngineStepsChangeTheEngine : Prop :=
  ∀ s t : State, step s = .next t → t.engine ≠ s.engine →
    (s.resets = true ∧ t.engine = Engine.reset) ∨
    (s.engineSteps = true ∧ s.engine.mode = .busy ∧ t.engine = s.engine.step) ∨
    (s.engine.mode ≠ .busy ∧ ∃ w, s.takes = some w ∧ t.engine = wordEffect w s.engine)

/-! ### Control commands (spec/44_control.md) -/

/-- R270: NOP is legal in READY, DONE and ERROR and leaves the state as it is. -/
def Obligations.NopLeavesTheState : Prop :=
  ∀ s : State, s.engine.mode ≠ .busy → exec .nop s = .next s

/-- R271, R341: INIT, in READY, DONE and ERROR, sets every element; the state it leaves is the reset
state; the host's side is not touched. -/
def Obligations.InitSetsEveryElement : Prop :=
  ∀ s : State, s.engine.mode ≠ .busy →
    exec .init s = .next
      { s with engine :=
        { h := #v[0x67452301, 0xEFCDAB89, 0x98BADCFE, 0x10325476, 0xC3D2E1F0]
          x := Vector.replicate 5 0, w := Vector.replicate 16 0, buf := Vector.replicate 64 0x00
          fill := 0, nbytes := 0, t := 0, next := .resume, mode := .ready
          errIllegal := false, errSeq := false, errTooLarge := false, errOp := 0, errArg := 0 } } ∧
    exec .init s = .next { s with engine := State.reset.engine }

/-- R272: in DONE the message is closed and the digest stays: one step keeps MODE and H unless it
restarts, and a taken ABSORBk or FINAL changes nothing but the error record. -/
def Obligations.DigestStaysUntilRestart : Prop :=
  ∀ s t : State, s.engine.mode = .done → step s = .next t →
    ((t.engine.mode = .done ∧ t.engine.h = s.engine.h) ∨ s.restarts) ∧
    (∀ w i, s.takes = some w → decode w = .command i → i.isAbsorb = true ∨ i = .final →
      t.engine = { s.engine with
        errSeq := true
        errOp := if s.engine.anyError then s.engine.errOp else opField w
        errArg := if s.engine.anyError then s.engine.errArg else argField w })

/-! ### Absorbing (spec/40_padding_and_blocks.md) -/

/-- R126: one byte goes to BUF[FILL] and counts in NBYTES; then FILL advances, or, at position 63,
FILL is 0 and the block starts with NEXT = RESUME. -/
def Obligations.AbsorbByteInsertsAtFill : Prop :=
  ∀ (e : Engine) (b : Byte),
    (e.fill ≠ 63 → e.absorbByte b =
      { e with buf := e.buf.set e.fill.toNat b e.fill.isLt, nbytes := e.nbytes + 1
               fill := e.fill + 1 }) ∧
    (e.fill = 63 → e.absorbByte b =
      { e with
        buf := e.buf.set 63 b
        nbytes := e.nbytes + 1
        fill := 0
        next := .resume
        w := Vector.ofFn fun i : Fin 16 =>
          Source.blockWord (e.buf.set 63 b) i.val
        x := e.h
        t := 0
        mode := .busy })

/-- R120, R126: an ABSORBk in READY that stays inside the block stores its bytes at FILL, FILL+1, ...,
advances FILL and NBYTES by k, and changes nothing else, of the engine or of the ports. -/
def Obligations.AbsorbInsideTheBlock : Prop :=
  ∀ (i : Instr) (s : State), i.isAbsorb = true → s.engine.mode = .ready →
    s.engine.nbytes.toNat + i.bytes.length ≤ Config.maxBytes →
    s.engine.fill.toNat + i.bytes.length ≤ 63 →
    ∃ t, exec i s = .next t ∧
      t = { s with engine := { s.engine with
            buf := t.engine.buf
            fill := s.engine.fill + BitVec.ofNat 6 i.bytes.length
            nbytes := s.engine.nbytes + BitVec.ofNat 64 i.bytes.length } } ∧
      t.engine.fill.toNat = s.engine.fill.toNat + i.bytes.length ∧
      t.engine.nbytes.toNat = s.engine.nbytes.toNat + i.bytes.length ∧
      (∀ n (h : n < i.bytes.length), t.engine.bufByte (s.engine.absorbPos n) = i.bytes[n]) ∧
      (∀ j, j < 64 → (∀ n, n < i.bytes.length → s.engine.absorbPos n ≠ j) →
        t.engine.bufByte j = s.engine.bufByte j)

/-- R120, R126, R140, R355: an ABSORBk in READY that reaches position 63 starts the block it completes
and stores the bytes after it from position 0 on; H and the error record are unchanged. -/
def Obligations.AbsorbCompletesTheBlock : Prop :=
  ∀ (i : Instr) (s : State), i.isAbsorb = true → s.engine.mode = .ready →
    s.engine.nbytes.toNat + i.bytes.length ≤ Config.maxBytes →
    64 ≤ s.engine.fill.toNat + i.bytes.length →
    ∃ t, exec i s = .next t ∧
      t = { s with engine := { s.engine with
            buf := t.engine.buf
            w := Vector.ofFn fun n : Fin 16 =>
              Source.blockWord (s.engine.completedBlock i.bytes) n.val
            x := s.engine.h
            t := 0
            next := .resume
            mode := .busy
            fill := s.engine.fill + BitVec.ofNat 6 i.bytes.length
            nbytes := s.engine.nbytes + BitVec.ofNat 64 i.bytes.length } } ∧
      t.engine.fill.toNat = s.engine.fill.toNat + i.bytes.length - 64 ∧
      t.engine.nbytes.toNat = s.engine.nbytes.toNat + i.bytes.length ∧
      (∀ n (h : n < i.bytes.length), t.engine.bufByte (s.engine.absorbPos n) = i.bytes[n]) ∧
      (∀ j, j < 64 → (∀ n, n < i.bytes.length → s.engine.absorbPos n ≠ j) →
        t.engine.bufByte j = s.engine.bufByte j)

/-- The frame of ABSORBk in every mode: bytes of BUF outside the positions it stores to are unchanged,
and H and the host's side are unchanged; outside READY, or past the length bound, all of BUF is. While
BUSY this is the model's inference from R350: `exec` answers the state unchanged (log entry 4). -/
def Obligations.AbsorbFrame : Prop :=
  ∀ (i : Instr) (s t : State), i.isAbsorb = true → exec i s = .next t →
    t.host = s.host ∧ t.engine.h = s.engine.h ∧
    (∀ j, j < 64 → (∀ n, n < i.bytes.length → s.engine.absorbPos n ≠ j) →
      t.engine.bufByte j = s.engine.bufByte j) ∧
    (s.engine.mode ≠ .ready ∨ Config.maxBytes < s.engine.nbytes.toNat + i.bytes.length →
      t.engine.buf = s.engine.buf ∧ t.engine.fill = s.engine.fill ∧
      t.engine.nbytes = s.engine.nbytes ∧ t.engine.w = s.engine.w ∧ t.engine.x = s.engine.x ∧
      t.engine.t = s.engine.t ∧ t.engine.next = s.engine.next)

/-- R125, R305: an ABSORBk in READY past MAX_BYTES is rejected whole: TOOLARGE is flagged, MODE becomes
ERROR, and nothing but the error record and MODE changes. -/
def Obligations.AbsorbPastTheBoundIsRejectedWhole : Prop :=
  ∀ (i : Instr) (s : State), i.isAbsorb = true → s.engine.mode = .ready →
    2 ^ 61 - 1 < s.engine.nbytes.toNat + i.bytes.length →
    exec i s = .next { s with engine := { s.engine with
      errTooLarge := true
      mode := .error
      errOp := if s.engine.anyError then s.engine.errOp else opField (encode i)
      errArg := if s.engine.anyError then s.engine.errArg else argField (encode i) } }

/-- R304: in DONE and in ERROR, ABSORBk and FINAL raise SEQ and change nothing but the error record;
MODE and the digest stay; NOP and INIT never raise SEQ. -/
def Obligations.ClosedMessageRaisesSeq : Prop :=
  (∀ (i : Instr) (s : State), i.isAbsorb = true ∨ i = .final →
    s.engine.mode = .done ∨ s.engine.mode = .error →
    exec i s = .next { s with engine := { s.engine with
      errSeq := true
      errOp := if s.engine.anyError then s.engine.errOp else opField (encode i)
      errArg := if s.engine.anyError then s.engine.errArg else argField (encode i) } }) ∧
  (∀ (i : Instr) (s t : State), i = .nop ∨ i = .init → exec i s = .next t →
    t.engine.errSeq = true → s.engine.errSeq = true)

/-- R64: an ABSORB4 at a FILL that is a multiple of 4 appends the big-endian word of its argument. -/
def Obligations.AlignedAbsorbFourIsABlockWord : Prop :=
  ∀ (v : Word) (s : State), s.engine.mode = .ready →
    s.engine.nbytes.toNat + 4 ≤ Config.maxBytes → s.engine.fill.toNat % 4 = 0 →
    ∃ t, exec (.absorb4 (lane v 0) (lane v 1) (lane v 2) (lane v 3)) s = .next t ∧
      argField (encode (.absorb4 (lane v 0) (lane v 1) (lane v 2) (lane v 3))) = v ∧
      t.engine.blockWord (s.engine.fill.toNat / 4) = v ∧
      (s.engine.fill = 60 → t.engine.w[15] = v)

/-! ### FINAL and the padding unit (spec/40_padding_and_blocks.md) -/

/-- R130, R140: FINAL with FILL ≤ 55 pads in one block and starts it. -/
def Obligations.FinalWithOneBlock : Prop :=
  ∀ s : State, s.engine.mode = .ready → s.engine.fill.toNat ≤ 55 →
    ∃ t, exec .final s = .next t ∧
      t = { s with engine := { s.engine with
            buf := t.engine.buf
            w := Vector.ofFn fun n : Fin 16 => Source.blockWord t.engine.block n.val
            x := s.engine.h
            t := 0
            next := .finish
            mode := .busy
            fill := 0 } } ∧
      (∀ j, j < s.engine.fill.toNat → t.engine.bufByte j = s.engine.bufByte j) ∧
      t.engine.bufByte s.engine.fill.toNat = 0x80 ∧
      (∀ j, s.engine.fill.toNat < j → j < 56 → t.engine.bufByte j = 0x00) ∧
      (∀ n, n < 8 → t.engine.bufByte (56 + n) = be64Byte (s.engine.nbytes * 8) n)

/-- R130, R140: FINAL with FILL ≥ 56 starts the block of data, flag and zeros, and leaves the second
padding block built in BUF. -/
def Obligations.FinalWithTwoBlocks : Prop :=
  ∀ s : State, s.engine.mode = .ready → 56 ≤ s.engine.fill.toNat →
    ∃ t, exec .final s = .next t ∧
      t = { s with engine := { s.engine with
            buf := t.engine.buf
            w := Vector.ofFn fun n : Fin 16 =>
              Source.blockWord (s.engine.flaggedBlock s.engine.fill.toNat) n.val
            x := s.engine.h
            t := 0
            next := .second
            mode := .busy
            fill := 0 } } ∧
      (∀ j, j < 56 → t.engine.bufByte j = 0x00) ∧
      (∀ n, n < 8 → t.engine.bufByte (56 + n) = be64Byte (s.engine.nbytes * 8) n)

/-- R131, R132: FINAL's last block, or its two last blocks one after the other, are the message bytes in
BUF, the flag byte, the zero run of length Z(NBYTES) and the 8-byte bit length, in an open message. -/
def Obligations.FinalBlocksAreTheSourcePadding : Prop :=
  ∀ s t : State, s.engine.Inv → s.engine.mode = .ready → exec .final s = .next t →
    (s.engine.fill.toNat ≤ 55 →
      t.engine.buf.toList = s.engine.buf.toList.take s.engine.fill.toNat ++
        0x80 :: List.replicate (Source.zeroRun s.engine.nbytes.toNat) 0x00 ++
        be64bytes (BitVec.ofNat 64 (8 * s.engine.nbytes.toNat)) ∧
      Source.zeroRun s.engine.nbytes.toNat = 55 - s.engine.fill.toNat) ∧
    (56 ≤ s.engine.fill.toNat →
      (s.engine.flaggedBlock s.engine.fill.toNat).toList ++ t.engine.buf.toList =
        s.engine.buf.toList.take s.engine.fill.toNat ++
        0x80 :: List.replicate (Source.zeroRun s.engine.nbytes.toNat) 0x00 ++
        be64bytes (BitVec.ofNat 64 (8 * s.engine.nbytes.toNat)) ∧
      Source.zeroRun s.engine.nbytes.toNat = 119 - s.engine.fill.toNat)

/-- R26, R63: in an open message the bit length fits 64 bits exactly, and the length field is its
big-endian form. -/
def Obligations.LengthFieldIsExact : Prop :=
  ∀ e : Engine, e.nbytes.toNat ≤ 2 ^ 61 - 1 →
    e.nbytes.extractLsb' 61 3 = 0 ∧ e.bitLength.toNat = 8 * e.nbytes.toNat ∧
    (be64bytes e.bitLength).foldl (fun n b => 256 * n + b.toNat) 0 = 8 * e.nbytes.toNat

/-- R133, R134: the padded buffer of an n-byte message is a positive multiple of 64 bytes, at least
n + 9 long, and is cut into ⌈(n + 9) / 64⌉ blocks that give it back. -/
def Obligations.PaddedBufferIsWholeBlocks : Prop :=
  ∀ m : List Byte,
    (Source.pad m).length % 64 = 0 ∧ m.length + 9 ≤ (Source.pad m).length ∧
    (Source.chunk (Source.pad m)).length = (m.length + 9 + 63) / 64 ∧
    (Source.chunk (Source.pad m)).flatMap Vector.toList = Source.pad m

/-! ### The engine's steps (spec/42_schedule_and_round.md) -/

/-- R201, R203: ROUND t, with the five new working variables, the schedule word, the window and T; all
else unchanged. -/
def Obligations.RoundRule : Prop :=
  ∀ e : Engine, e.mode = .busy → e.t.toNat < 80 →
    let t := e.t.toNat
    let wt : Word :=
      if t < 16 then e.wAt t
      else (e.wAt (t - 3) ^^^ e.wAt (t - 8) ^^^ e.wAt (t - 14) ^^^ e.wAt t).rotateLeft 1
    e.step = { e with
      x := #v[e.x[0].rotateLeft 5 + logical t e.x[1] e.x[2] e.x[3] + e.x[4] + wt + roundK t,
              e.x[0], e.x[1].rotateLeft 30, e.x[2], e.x[3]]
      w := e.step.w
      t := e.t + 1 } ∧
    (∀ n (h : n < 16), e.step.w[n] = if 16 ≤ t ∧ n = t % 16 then wt else e.w[n]) ∧
    e.step.t.toNat = e.t.toNat + 1

/-- R205, R206: ACCUM adds A..E into H and continues by NEXT. -/
def Obligations.AccumRule : Prop :=
  ∀ e : Engine, e.mode = .busy → e.t = 80 →
    let h' : Vector Word 5 :=
      #v[e.h[0] + e.x[0], e.h[1] + e.x[1], e.h[2] + e.x[2], e.h[3] + e.x[3], e.h[4] + e.x[4]]
    (e.next = .resume → e.step = { e with h := h', mode := .ready, t := 0 }) ∧
    (e.next = .second → e.step = { e with
      h := h', x := h', t := 0, next := .finish
      w := Vector.ofFn fun n : Fin 16 => Source.blockWord e.block n.val }) ∧
    (e.next = .finish → e.step = { e with h := h', mode := .done, next := .resume, t := 0 }) ∧
    (e.next = .finish → e.step.dvalid = true)

/-- R202: the window holds the source's last 16 words, round t consumes w[t], and after the block W[i]
is w[64 + i]. -/
def Obligations.WindowHoldsTheExpansion : Prop :=
  ∀ e : Engine,
    (∀ t, t < 80 → (e.blockStart.steps t).schedWord t = (Source.expand e.block).getD t 0) ∧
    (∀ t j, 16 ≤ t → t ≤ 80 → 1 ≤ j → j ≤ 16 →
      (e.blockStart.steps t).wAt (t - j) = (Source.expand e.block).getD (t - j) 0) ∧
    (∀ n (h : n < 16), (e.blockStart.steps 80).w[n] = (Source.expand e.block).getD (64 + n) 0)

/-- R203, R204: after n rounds of a block the working variables are the source's after n rounds, and
T counts them; nothing outside A..E, W and T has changed. -/
def Obligations.RoundsFollowTheSource : Prop :=
  ∀ (e : Engine) (n : Nat), n ≤ 80 →
    (e.blockStart.steps n).x = Source.rounds e.h e.block n ∧
    (e.blockStart.steps n).t = BitVec.ofNat 7 n ∧
    e.blockStart.steps n = { e with
      x := (e.blockStart.steps n).x
      w := (e.blockStart.steps n).w
      t := BitVec.ofNat 7 n
      mode := .busy }

/-- R209: 81 engine steps from a block start compute the source's compression of H and BUF, whatever the
counters, NEXT, the error record or the earlier window. -/
def Obligations.BlockComputesTheCompression : Prop :=
  ∀ e : Engine, (e.blockStart.steps 81).h = Source.compress e.h e.block

/-- R207: a command that starts a block leaves the engine BUSY for exactly 81 engine steps, or for
exactly 162 when it is a FINAL with FILL ≥ 56; and a BUSY engine with T ≤ 80 is BUSY for exactly
`stepsLeft` more engine steps, at most 162. -/
def Obligations.BlocksTakeEightyOneSteps : Prop :=
  (∀ (i : Instr) (s t : State), s.engine.mode = .ready → exec i s = .next t →
    t.engine.mode = .busy →
    let n := if i = .final ∧ 56 ≤ s.engine.fill.toNat then 162 else 81
    (∀ k, k < n → (t.engine.steps k).mode = .busy) ∧ (t.engine.steps n).mode ≠ .busy) ∧
  (∀ e : Engine, e.t.toNat ≤ 80 → e.mode = .busy →
    (∀ k, k < e.stepsLeft → (e.steps k).mode = .busy) ∧ (e.steps e.stepsLeft).mode ≠ .busy ∧
    e.stepsLeft ≤ 162)

/-- R207, R361: from every state the machine comes to a state with nothing left on the agenda, no word
on the port and CMD_READY = 1. The agenda is finite, which is the model's form of fairness (log
entry 5). -/
def Obligations.CommandPortBecomesReady : Prop :=
  ∀ s : State, ∃ t, Reaches s t ∧ t.host.agenda = [] ∧ t.host.cmdWord = none ∧ t.engine.CmdReady

/-- R252: a read between any two engine steps of a block is admitted and returns the register's value
there. -/
def Obligations.ReadsAreAdmittedAtEveryRound : Prop :=
  ∀ (s : State) (idx : BitVec 8) (k : Nat) (rest : List Action), s.engine.Inv →
    s.engine.mode = .busy → k ≤ s.engine.stepsLeft →
    s.host.agenda = List.replicate k .engine ++ .read idx :: rest →
    Host.Core.run core (k + 1) s = .next
      { engine := s.engine.steps k
        host := { s.host with
          readData := some ((s.engine.steps k).regRead idx), agenda := rest } }

/-! ### Whole messages (spec/42_schedule_and_round.md R210, spec/44_control.md R273) -/

/-- R210: INIT, then any actions of the host but reset, INIT and FINAL, in any interleaving with the
engine, delivering the message m in any split, then FINAL, bring the engine to DONE with the source's
digest of m in H and DVALID = 1; illegal words among them only set ERR_ILLEGAL. -/
def Obligations.EngineComputesTheDigest : Prop :=
  ∀ (s : State) (body : List Action) (m : List Byte),
    s.host.cmdWord = none →
    s.host.agenda = .issue (encode .init) :: (body ++ [.issue (encode .final)]) →
    body.all Action.withinMessage = true →
    body.flatMap Action.delivers = m →
    m.length ≤ Config.maxBytes →
    ∃ t, Reaches s t ∧ t.host.agenda = [] ∧ t.host.cmdWord = none ∧
      t.engine.mode = .done ∧ t.engine.dvalid = true ∧ t.engine.h = Source.digest m ∧
      t.engine.nbytes.toNat = m.length ∧ t.engine.errSeq = false ∧
      t.engine.errTooLarge = false ∧ t.engine.errIllegal = body.any Action.isIllegal

/-- R100, R273: the host program `HASH m; DIGEST` reads the 40 characters of the source's digest of m,
four at a time. The agenda is the model's choice of interleaving: no turn of the engine between the
lines but WAIT's own (log entries 1, 2, 5, 19). -/
def Obligations.HashThenDigestReadsTheText : Prop :=
  ∀ (s : State) (m : List Byte) (j : Fin 10), s.host.cmdWord = none →
    s.host.agenda = hashActions m ++ digestActions → m.length ≤ Config.maxBytes →
    ∃ t, Reaches s t ∧ t.host.agenda = digestActions.drop (j.val + 1) ∧
      t.engine.mode = .done ∧
      let c := Source.hexDigits (Source.raw (Source.digest m))
      t.host.readData = some (be32 (c.getD (4 * j.val) 0) (c.getD (4 * j.val + 1) 0)
        (c.getD (4 * j.val + 2) 0) (c.getD (4 * j.val + 3) 0))

/-! ### Errors (spec/60_exceptions.md, spec/10_state.md R33, R34) -/

/-- R302: Error writes the capture registers for the first error only, the flag of its kind, and MODE
for TOOLARGE; nothing else. -/
def Obligations.ErrorRecordRule : Prop :=
  ∀ (e : Engine) (op : Byte) (arg : Word),
    let first := !(e.errIllegal || e.errSeq || e.errTooLarge)
    e.raise .illegal op arg = { e with
      errIllegal := true
      errOp := if first then op else e.errOp, errArg := if first then arg else e.errArg } ∧
    e.raise .seq op arg = { e with
      errSeq := true
      errOp := if first then op else e.errOp, errArg := if first then arg else e.errArg } ∧
    e.raise .tooLarge op arg = { e with
      errTooLarge := true, mode := .error
      errOp := if first then op else e.errOp, errArg := if first then arg else e.errArg }

/-- R306: a taken word raises at most one error, the first that applies of ILLEGAL, SEQ, TOOLARGE, and
an error-free one raises none. -/
def Obligations.ErrorPriority : Prop :=
  ∀ (w : CmdWord) (s t : State), s.engine.mode ≠ .busy → takeWord w s = .next t →
    (∀ why, decode w = .illegal why →
      t.engine = s.engine.raise .illegal (opField w) (argField w)) ∧
    (∀ i, decode w = .command i → i.isAbsorb = true ∨ i = .final →
      s.engine.mode = .done ∨ s.engine.mode = .error →
      t.engine = s.engine.raise .seq (opField w) (argField w)) ∧
    (∀ i, decode w = .command i → i.isAbsorb = true → s.engine.mode = .ready →
      Config.maxBytes < s.engine.nbytes.toNat + i.bytes.length →
      t.engine = s.engine.raise .tooLarge (opField w) (argField w)) ∧
    (∀ i, decode w = .command i → i ≠ .init →
      (i = .nop ∨ (s.engine.mode = .ready ∧
        (i = .final ∨ s.engine.nbytes.toNat + i.bytes.length ≤ Config.maxBytes))) →
      t.engine.errIllegal = s.engine.errIllegal ∧ t.engine.errSeq = s.engine.errSeq ∧
      t.engine.errTooLarge = s.engine.errTooLarge ∧ t.engine.errOp = s.engine.errOp ∧
      t.engine.errArg = s.engine.errArg)

/-- R33: Error sets the flag of its kind; a reset and a taken INIT clear the three flags, and no other
step clears one. -/
def Obligations.ErrorFlagsAreSticky : Prop :=
  (∀ (e : Engine) (op : Byte) (arg : Word), (e.raise .illegal op arg).errIllegal = true ∧
    (e.raise .seq op arg).errSeq = true ∧ (e.raise .tooLarge op arg).errTooLarge = true) ∧
  (∀ s t : State, step s = .next t →
    (s.restarts → t.engine.errIllegal = false ∧ t.engine.errSeq = false ∧
      t.engine.errTooLarge = false) ∧
    (¬ s.restarts →
      (s.engine.errIllegal = true → t.engine.errIllegal = true) ∧
      (s.engine.errSeq = true → t.engine.errSeq = true) ∧
      (s.engine.errTooLarge = true → t.engine.errTooLarge = true)))

/-- R34: once a flag is set, the capture registers keep the first error until a reset or an INIT; a
step that changes them is one in which the port takes the rejected word they show. -/
def Obligations.CaptureHoldsTheFirstError : Prop :=
  ∀ s t : State, step s = .next t → ¬ s.restarts →
    (s.engine.anyError = true →
      t.engine.errOp = s.engine.errOp ∧ t.engine.errArg = s.engine.errArg) ∧
    (s.engine.anyError = false → t.engine.anyError = true →
      ∃ w, s.takes = some w ∧ t.engine.errOp = opField w ∧ t.engine.errArg = argField w) ∧
    (t.engine.anyError = false →
      t.engine.errOp = s.engine.errOp ∧ t.engine.errArg = s.engine.errArg)

/-- R309: only INIT and reset leave MODE = ERROR, and after them no error is recorded. -/
def Obligations.OnlyRestartLeavesError : Prop :=
  ∀ s t : State, step s = .next t →
    (s.engine.mode = .error → t.engine.mode ≠ .error → s.restarts) ∧
    (s.restarts → t.engine.mode = .ready ∧ t.engine.anyError = false ∧ t.engine.errOp = 0 ∧
      t.engine.errArg = 0)

/-! ### Invariants and whole-machine rules (spec/10_state.md) -/

/-- R39, R40: every step keeps the legal values and the six invariants. -/
def Obligations.EveryStepKeepsTheInvariants : Prop :=
  ∀ s t : State, s.engine.Inv → step s = .next t → t.engine.Inv

/-- R39, R40: they hold after reset. -/
def Obligations.ResetStateMeetsTheInvariants : Prop := State.reset.engine.Inv

/-- R20, R21: H changes only in an ACCUM, in an INIT or in a reset, and the last two set it to IV. -/
def Obligations.HashStateChangesOnlyInAccum : Prop :=
  ∀ s t : State, step s = .next t → t.engine.h ≠ s.engine.h →
    (s.engineSteps = true ∧ s.engine.mode = .busy ∧ ¬ s.engine.t.toNat < 80 ∧
      t.engine.h = s.engine.sumH) ∨
    (s.restarts ∧ t.engine.h = Config.iv)

/-- R354: NBYTES changes only in a taken ABSORBk, an INIT or a reset; no engine step and no read changes
it, so its two halves read in between are those of one value. -/
def Obligations.NbytesChangesOnlyInHostActions : Prop :=
  ∀ s t : State, step s = .next t → t.engine.nbytes ≠ s.engine.nbytes →
    s.restarts ∨ ∃ w i, s.takes = some w ∧ decode w = .command i ∧ i.isAbsorb = true ∧
      t.engine.nbytes = s.engine.nbytes + BitVec.ofNat 64 i.bytes.length

/-! ### The read port and the serializer (spec/10_state.md, spec/20_memory.md, spec/43_serializer_and_reads.md) -/

/-- R35, R36: the fields of STATUS and of SEQ, bit by bit, and the two registers after reset. -/
def Obligations.StatusAndSequencerFields : Prop :=
  ∀ e : Engine,
    (e.regRead 0x00).extractLsb' 0 2 =
      (match e.mode with
      | .ready => (0 : BitVec 2)
      | .busy => 1
      | .done => 2
      | .error => 3) ∧
    (e.regRead 0x00).getLsbD 2 = decide (e.mode = .done) ∧
    (e.regRead 0x00).getLsbD 3 = false ∧
    (e.regRead 0x00).getLsbD 4 = e.errIllegal ∧ (e.regRead 0x00).getLsbD 5 = e.errSeq ∧
    (e.regRead 0x00).getLsbD 6 = e.errTooLarge ∧
    (∀ n, 7 ≤ n → (e.regRead 0x00).getLsbD n = false) ∧
    (e.regRead 0x04).extractLsb' 0 7 = e.t ∧ (e.regRead 0x04).getLsbD 7 = false ∧
    (e.regRead 0x04).extractLsb' 8 2 =
      (match e.next with
      | .resume => (0 : BitVec 2)
      | .second => 1
      | .finish => 2) ∧
    (∀ n, 10 ≤ n → (e.regRead 0x04).getLsbD n = false) ∧
    State.reset.engine.regRead 0x00 = 0x00000000 ∧ State.reset.engine.regRead 0x04 = 0x00000000

/-- R37, R38, R70, R71, R250: every other index of the read-port map, the ones without a register
included. -/
def Obligations.ReadPortMap : Prop :=
  ∀ e : Engine,
    e.regRead 0x02 ++ e.regRead 0x01 = e.nbytes ∧
    (e.regRead 0x03).toNat = e.fill.toNat ∧
    (e.regRead 0x05).toNat = e.errOp.toNat ∧ e.regRead 0x06 = e.errArg ∧
    (∀ i : Fin 5, e.regRead (0x08 + BitVec.ofNat 8 i.val) = e.h[i]) ∧
    (∀ i : Fin 5, e.regRead (0x10 + BitVec.ofNat 8 i.val) = e.x[i]) ∧
    (∀ i : Fin 16, e.regRead (0x20 + BitVec.ofNat 8 i.val) = e.w[i]) ∧
    (∀ i : Fin 16, e.regRead (0x30 + BitVec.ofNat 8 i.val) =
      be32 (e.buf[4 * i.val]) (e.buf[4 * i.val + 1]) (e.buf[4 * i.val + 2])
        (e.buf[4 * i.val + 3])) ∧
    (∀ idx : BitVec 8, idx = 0x07 ∨ (0x0D ≤ idx ∧ idx ≤ 0x0F) ∨ (0x15 ≤ idx ∧ idx ≤ 0x1F) ∨
      0x4A ≤ idx → e.regRead idx = 0)

/-- R240, R241: the character codes, and character i of the text as the digit of nibble i mod 8 of word
i div 8, so that every word gives 8 characters, leading zeros kept. -/
def Obligations.DigestTextIsFixedWidth : Prop :=
  (∀ n : BitVec 4, (n.toNat ≤ 9 → (hexChar n).toNat = 0x30 + n.toNat) ∧
    (10 ≤ n.toNat → (hexChar n).toNat = 0x57 + n.toNat)) ∧
  (∀ e : Engine, e.hexText.length = 40 ∧
    ∀ (i : Nat) (h : i < 40), e.hexText[i]? =
      some (hexChar ((e.h[i / 8]'(by omega) >>> (28 - 4 * (i % 8))).setWidth 4)))

/-- R245: the hex text is the raw 160-bit digest in 40 lowercase digits. -/
def Obligations.DigestTextIsTheRawDigest : Prop :=
  ∀ e : Engine, e.hexText = Source.hexDigits (Source.raw e.h)

/-- R242: HEX j packs characters 4j..4j+3, first one most significant, and so covers the high half of
word j div 2 for even j and the low half for odd j. -/
def Obligations.HexRegistersPackTheText : Prop :=
  ∀ (e : Engine) (j : Fin 10),
    e.regRead (0x40 + BitVec.ofNat 8 j.val) =
      be32 (e.hexText.getD (4 * j.val) 0) (e.hexText.getD (4 * j.val + 1) 0)
        (e.hexText.getD (4 * j.val + 2) 0) (e.hexText.getD (4 * j.val + 3) 0) ∧
    (∀ n, n < 4 → lane (e.regRead (0x40 + BitVec.ofNat 8 j.val)) n =
      hexChar ((e.h[j.val / 2]'(by omega) >>>
        ((if j.val % 2 = 0 then 28 else 12) - 4 * n)).setWidth 4))

/-! ### The ALU (spec/41_alu.md) -/

/-- R170: bit i of ROTL(x, n) is bit (i - n) mod 32 of x; no bit is lost. -/
def Obligations.RotateMovesEveryBit : Prop :=
  (∀ (x : Word) (n i : Nat), n ≤ 31 → i < 32 →
    (rotl x n).getLsbD i = x.getLsbD ((i + 32 - n) % 32)) ∧
  (∀ x : Word, rotl x 0 = x) ∧
  (∀ n, n ≤ 31 → rotl 0 n = 0 ∧ rotl 0xFFFFFFFF n = 0xFFFFFFFF) ∧
  rotl 0x80000000 1 = 0x00000001 ∧ rotl 0x12345678 5 = 0x468ACF02

/-- R172 to R175: each bit of CH is c's where b's is 1 and d's where it is 0, XOR4 and PARITY are the
parity of their bits, MAJ is the majority of three bits; and the corner cases and examples of these
rules. -/
def Obligations.LogicBitByBit : Prop :=
  (∀ (b c d : Word) (i : Nat), (ch b c d).getLsbD i =
    if b.getLsbD i then c.getLsbD i else d.getLsbD i) ∧
  (∀ c d : Word, ch 0xFFFFFFFF c d = c ∧ ch 0 c d = d ∧ ch d c c = c) ∧
  (∀ (p q r s : Word) (i : Nat), (xor4 p q r s).getLsbD i =
    ((p.getLsbD i ^^ q.getLsbD i) ^^ (r.getLsbD i ^^ s.getLsbD i))) ∧
  (∀ x y : Word, xor4 x x y y = 0) ∧
  (∀ (b c d : Word) (i : Nat), (parity b c d).getLsbD i =
    (b.getLsbD i ^^ (c.getLsbD i ^^ d.getLsbD i))) ∧
  (∀ b c : Word, parity b c c = b ∧ parity b b b = b) ∧
  (∀ (b c d : Word) (i : Nat), (maj b c d).getLsbD i =
    decide (2 ≤ (b.getLsbD i).toNat + (c.getLsbD i).toNat + (d.getLsbD i).toNat)) ∧
  (∀ b c d : Word, maj b c c = c ∧ maj b b d = b ∧ maj 0 0 d = 0) ∧
  xor4 0x00000000 0x00000000 0x00000000 0x61626380 = 0x61626380 ∧
  ch 0xEFCDAB89 0x98BADCFE 0x10325476 = 0x98BADCFE ∧
  parity 0xEFCDAB89 0x98BADCFE 0x10325476 = 0x67452301 ∧
  maj 0xF0F0F0F0 0xFF00FF00 0xCCCCCCCC = 0xFCC0FCC0

/-- R176, R177, R178: the function and the constant of every round. -/
def Obligations.SelectorAndConstants : Prop :=
  ∀ (t : Nat) (b c d : Word),
    (t < 20 → fsel t = 0 ∧ logical t b c d = ch b c d ∧ roundK t = 0x5A827999) ∧
    (20 ≤ t → t < 40 → fsel t = 1 ∧ logical t b c d = parity b c d ∧ roundK t = 0x6ED9EBA1) ∧
    (40 ≤ t → t < 60 → fsel t = 2 ∧ logical t b c d = maj b c d ∧ roundK t = 0x8F1BBCDC) ∧
    (60 ≤ t → t < 80 → fsel t = 3 ∧ logical t b c d = parity b c d ∧ roundK t = 0xCA62C1D6)

/-- R179: the round sum is the sum of its five operands mod 2^32, in any order; and the rule's example. -/
def Obligations.RoundSumModWord : Prop :=
  (∀ a e f w k : Word,
    (sum5 a e f w k).toNat =
      ((rotl a 5).toNat + f.toNat + e.toNat + w.toNat + k.toNat) % 2 ^ 32 ∧
    sum5 a e f w k = k + (w + (e + (f + rotl a 5)))) ∧
  sum5 0xFFFFFFFF 0xFFFFFFFF 0xFFFFFFFF 0xFFFFFFFF 0xFFFFFFFF = 0xFFFFFFFB

/-! ### Host programs (spec/30_encoding.md R99, R100) and platforms (R80, R320) -/

/-- R100: ABSORBS s is a sequence of ABSORBk commands, ⌈|s| / 4⌉ of them, that carries exactly the bytes
of s, in order, four in each but the last. -/
def Obligations.AbsorbsCarriesTheBytes : Prop :=
  ∀ s : List Byte, (absorbsOf s).flatMap Instr.bytes = s ∧
    (∀ i ∈ absorbsOf s, i.isAbsorb = true) ∧ (absorbsOf s).length = (s.length + 3) / 4 ∧
    (∀ i ∈ (absorbsOf s).dropLast, i.bytes.length = 4)

/-- R80, R320: an action of one instance is that instance's own step and leaves every other instance as
it is, and actions of two instances commute. -/
def Obligations.InstancesAreIndependent : Prop :=
  ∀ (n : Nat) (p : Platform n) (i j : Fin n),
    (∃ t q, step p[i] = .next t ∧ p.act i = .next q ∧ q[i] = t ∧
      ∀ k : Fin n, k ≠ i → q[k] = p[k]) ∧
    (i ≠ j → ∃ q r u, p.act i = .next q ∧ q.act j = .next u ∧ p.act j = .next r ∧
      r.act i = .next u)
end

