-- ==== Sys2Proof/Laws/State.lean ====
section
/-! SUPPORT. One lemma for each field of each update of the state: later proofs rewrite with these and
unfold no record update. -/

namespace Sys2Proof.Machine

section Host

variable (s : State) (a : List Action) (w : Option CmdWord) (idx : BitVec 8)

@[simp] theorem State.withAgenda_engine : (s.withAgenda a).engine = s.engine := rfl
@[simp] theorem State.withAgenda_cmdWord : (s.withAgenda a).host.cmdWord = s.host.cmdWord := rfl
@[simp] theorem State.withAgenda_readData : (s.withAgenda a).host.readData = s.host.readData := rfl
@[simp] theorem State.withAgenda_agenda : (s.withAgenda a).host.agenda = a := rfl
@[simp] theorem State.withAgenda_withAgenda (b : List Action) :
    (s.withAgenda a).withAgenda b = s.withAgenda b := rfl
@[simp] theorem State.withAgenda_self : s.withAgenda s.host.agenda = s := rfl

@[simp] theorem State.withCmdWord_engine : (s.withCmdWord w).engine = s.engine := rfl
@[simp] theorem State.withCmdWord_cmdWord : (s.withCmdWord w).host.cmdWord = w := rfl
@[simp] theorem State.withCmdWord_readData : (s.withCmdWord w).host.readData = s.host.readData := rfl
@[simp] theorem State.withCmdWord_agenda : (s.withCmdWord w).host.agenda = s.host.agenda := rfl
@[simp] theorem State.withCmdWord_withCmdWord (v : Option CmdWord) :
    (s.withCmdWord w).withCmdWord v = s.withCmdWord v := rfl

@[simp] theorem readReg_engine : (readReg idx s).engine = s.engine := rfl
@[simp] theorem readReg_cmdWord : (readReg idx s).host.cmdWord = s.host.cmdWord := rfl
@[simp] theorem readReg_readData :
    (readReg idx s).host.readData = some (s.engine.regRead idx) := rfl
@[simp] theorem readReg_agenda : (readReg idx s).host.agenda = s.host.agenda := rfl

@[simp] theorem resetEngine_engine : (resetEngine s).engine = Engine.reset := rfl
@[simp] theorem resetEngine_cmdWord : (resetEngine s).host.cmdWord = none := rfl
@[simp] theorem resetEngine_readData : (resetEngine s).host.readData = s.host.readData := rfl
@[simp] theorem resetEngine_agenda : (resetEngine s).host.agenda = s.host.agenda := rfl

end Host

section Engine

variable (e : Engine)

@[simp] theorem Engine.writeAtFill_h (v : Byte) : (e.writeAtFill v).h = e.h := rfl
@[simp] theorem Engine.writeAtFill_x (v : Byte) : (e.writeAtFill v).x = e.x := rfl
@[simp] theorem Engine.writeAtFill_w (v : Byte) : (e.writeAtFill v).w = e.w := rfl
@[simp] theorem Engine.writeAtFill_fill (v : Byte) : (e.writeAtFill v).fill = e.fill := rfl
@[simp] theorem Engine.writeAtFill_nbytes (v : Byte) : (e.writeAtFill v).nbytes = e.nbytes := rfl
@[simp] theorem Engine.writeAtFill_t (v : Byte) : (e.writeAtFill v).t = e.t := rfl
@[simp] theorem Engine.writeAtFill_next (v : Byte) : (e.writeAtFill v).next = e.next := rfl
@[simp] theorem Engine.writeAtFill_mode (v : Byte) : (e.writeAtFill v).mode = e.mode := rfl
@[simp] theorem Engine.writeAtFill_errIllegal (v : Byte) :
    (e.writeAtFill v).errIllegal = e.errIllegal := rfl
@[simp] theorem Engine.writeAtFill_errSeq (v : Byte) : (e.writeAtFill v).errSeq = e.errSeq := rfl
@[simp] theorem Engine.writeAtFill_errTooLarge (v : Byte) :
    (e.writeAtFill v).errTooLarge = e.errTooLarge := rfl
@[simp] theorem Engine.writeAtFill_errOp (v : Byte) : (e.writeAtFill v).errOp = e.errOp := rfl
@[simp] theorem Engine.writeAtFill_errArg (v : Byte) : (e.writeAtFill v).errArg = e.errArg := rfl

@[simp] theorem Engine.blockStart_h : e.blockStart.h = e.h := rfl
@[simp] theorem Engine.blockStart_x : e.blockStart.x = e.h := rfl
@[simp] theorem Engine.blockStart_buf : e.blockStart.buf = e.buf := rfl
@[simp] theorem Engine.blockStart_fill : e.blockStart.fill = e.fill := rfl
@[simp] theorem Engine.blockStart_nbytes : e.blockStart.nbytes = e.nbytes := rfl
@[simp] theorem Engine.blockStart_t : e.blockStart.t = 0 := rfl
@[simp] theorem Engine.blockStart_next : e.blockStart.next = e.next := rfl
@[simp] theorem Engine.blockStart_mode : e.blockStart.mode = .busy := rfl
@[simp] theorem Engine.blockStart_errIllegal : e.blockStart.errIllegal = e.errIllegal := rfl
@[simp] theorem Engine.blockStart_errSeq : e.blockStart.errSeq = e.errSeq := rfl
@[simp] theorem Engine.blockStart_errTooLarge : e.blockStart.errTooLarge = e.errTooLarge := rfl
@[simp] theorem Engine.blockStart_errOp : e.blockStart.errOp = e.errOp := rfl
@[simp] theorem Engine.blockStart_errArg : e.blockStart.errArg = e.errArg := rfl

@[simp] theorem Engine.round_h : e.round.h = e.h := rfl
@[simp] theorem Engine.round_w : e.round.w = e.schedWindow e.t.toNat := rfl
@[simp] theorem Engine.round_buf : e.round.buf = e.buf := rfl
@[simp] theorem Engine.round_fill : e.round.fill = e.fill := rfl
@[simp] theorem Engine.round_nbytes : e.round.nbytes = e.nbytes := rfl
@[simp] theorem Engine.round_t : e.round.t = e.t + 1 := rfl
@[simp] theorem Engine.round_next : e.round.next = e.next := rfl
@[simp] theorem Engine.round_mode : e.round.mode = e.mode := rfl
@[simp] theorem Engine.round_errIllegal : e.round.errIllegal = e.errIllegal := rfl
@[simp] theorem Engine.round_errSeq : e.round.errSeq = e.errSeq := rfl
@[simp] theorem Engine.round_errTooLarge : e.round.errTooLarge = e.errTooLarge := rfl
@[simp] theorem Engine.round_errOp : e.round.errOp = e.errOp := rfl
@[simp] theorem Engine.round_errArg : e.round.errArg = e.errArg := rfl

end Engine

end Sys2Proof.Machine
end

