-- ==== Sys2Proof/Laws/Ops.lean ====
section
/-! SUPPORT. One spec lemma for each shared operation: what it can do, said once. -/

namespace Sys2Proof.Machine

/-- The byte of BUF at a position below 64. -/
theorem Engine.bufByte_eq (e : Engine) {j : Nat} (hj : j < 64) : e.bufByte j = e.buf[j] := by
  simp [Engine.bufByte, Nat.mod_eq_of_lt hj]

/-- The word of W at a position below 16. -/
theorem Engine.wAt_eq (e : Engine) {n : Nat} (hn : n < 16) : e.wAt n = e.w[n] := by
  simp [Engine.wAt, Nat.mod_eq_of_lt hn]

/-- Word i of the window after a block start is block word i of the buffer (R140). -/
theorem Engine.blockStart_w (e : Engine) {i : Nat} (hi : i < 16) :
    e.blockStart.w[i] = e.blockWord i := by
  simp [Engine.blockStart]

/-- Writing at FILL changes the byte at FILL and no other (R126). -/
theorem Engine.writeAtFill_bufByte (e : Engine) (v : Byte) {j : Nat} (hj : j < 64) :
    (e.writeAtFill v).bufByte j = if j = e.fill.toNat then v else e.bufByte j := by
  rw [Engine.bufByte_eq _ hj, Engine.bufByte_eq _ hj]
  simp only [Engine.writeAtFill, Vector.getElem_set]
  by_cases h : e.fill.toNat = j
  · simp [h]
  · simp [h, Ne.symm h]

/-- Everything a command can do through the port: nothing while BUSY, else its effect. -/
theorem whenReady_cases {f : Engine → Engine} {s t : State} (h : whenReady f s = .next t) :
    (s.engine.mode = .busy ∧ t = s) ∨
      (s.engine.mode ≠ .busy ∧ t = { s with engine := f s.engine }) := by
  unfold whenReady at h
  split at h
  · exact .inl ⟨‹_›, (Host.Outcome.next.inj h).symm⟩
  · exact .inr ⟨‹_›, (Host.Outcome.next.inj h).symm⟩

theorem whenReady_ready {f : Engine → Engine} {s : State} (h : s.engine.mode ≠ .busy) :
    whenReady f s = .next { s with engine := f s.engine } := by
  simp [whenReady, h]

theorem whenReady_busy {f : Engine → Engine} {s : State} (h : s.engine.mode = .busy) :
    whenReady f s = .next s := by
  simp [whenReady, h]

/-- `exec` is the effect of the command, through the port. -/
theorem exec_eq_effect (i : Instr) (s : State) : exec i s = whenReady (effect i) s := by
  cases i <;> rfl

section Raise

variable (e : Engine) (k : ErrorKind) (op : Byte) (arg : Word)

/-- Recording an error leaves the datapath and the counters alone (R302). -/
theorem Engine.raise_frame :
    (e.raise k op arg).h = e.h ∧ (e.raise k op arg).x = e.x ∧ (e.raise k op arg).w = e.w ∧
      (e.raise k op arg).buf = e.buf ∧ (e.raise k op arg).fill = e.fill ∧
      (e.raise k op arg).nbytes = e.nbytes ∧ (e.raise k op arg).t = e.t ∧
      (e.raise k op arg).next = e.next := by
  unfold Engine.raise Engine.capture
  cases k <;> split <;> simp [Engine.setError]

@[simp] theorem Engine.raise_h : (e.raise k op arg).h = e.h := (e.raise_frame k op arg).1
@[simp] theorem Engine.raise_x : (e.raise k op arg).x = e.x := (e.raise_frame k op arg).2.1
@[simp] theorem Engine.raise_w : (e.raise k op arg).w = e.w := (e.raise_frame k op arg).2.2.1
@[simp] theorem Engine.raise_buf : (e.raise k op arg).buf = e.buf :=
  (e.raise_frame k op arg).2.2.2.1
@[simp] theorem Engine.raise_fill : (e.raise k op arg).fill = e.fill :=
  (e.raise_frame k op arg).2.2.2.2.1
@[simp] theorem Engine.raise_nbytes : (e.raise k op arg).nbytes = e.nbytes :=
  (e.raise_frame k op arg).2.2.2.2.2.1
@[simp] theorem Engine.raise_t : (e.raise k op arg).t = e.t :=
  (e.raise_frame k op arg).2.2.2.2.2.2.1
@[simp] theorem Engine.raise_next : (e.raise k op arg).next = e.next :=
  (e.raise_frame k op arg).2.2.2.2.2.2.2

/-- MODE after an error: ERROR for TOOLARGE, else unchanged (R302). -/
theorem Engine.raise_mode :
    (e.raise k op arg).mode = if k = .tooLarge then .error else e.mode := by
  unfold Engine.raise Engine.capture
  cases k <;> split <;> simp [Engine.setError]

/-- The flags after an error: the flag of its kind is set, no flag is cleared (R302). -/
theorem Engine.raise_flags :
    (e.raise k op arg).errIllegal = (e.errIllegal || decide (k = .illegal)) ∧
      (e.raise k op arg).errSeq = (e.errSeq || decide (k = .seq)) ∧
      (e.raise k op arg).errTooLarge = (e.errTooLarge || decide (k = .tooLarge)) := by
  unfold Engine.raise Engine.capture
  cases k <;> split <;> simp [Engine.setError]

/-- The capture registers after an error: written by the first one only (R302). -/
theorem Engine.raise_capture :
    (e.raise k op arg).errOp = (if e.anyError then e.errOp else op) ∧
      (e.raise k op arg).errArg = (if e.anyError then e.errArg else arg) := by
  unfold Engine.raise Engine.capture
  cases k <;> split <;> simp_all [Engine.setError]

/-- After an error some flag is set. -/
theorem Engine.raise_anyError : (e.raise k op arg).anyError = true := by
  have h := e.raise_flags k op arg
  cases k <;> simp [Engine.anyError, h]

end Raise

section Absorb

variable (e : Engine) (b : Byte)

/-- The two ways a byte is absorbed: inside the block, or completing it (R126). -/
theorem Engine.absorbByte_cases :
    (e.fill = 63 ∧ e.absorbByte b =
        Engine.blockStart
          { e.writeAtFill b with nbytes := e.nbytes + 1, fill := 0, next := .resume }) ∨
      (e.fill ≠ 63 ∧ e.absorbByte b =
        { e.writeAtFill b with nbytes := e.nbytes + 1, fill := e.fill + 1 }) := by
  unfold Engine.absorbByte
  by_cases h : e.fill = 63
  · exact .inl ⟨h, if_pos h⟩
  · exact .inr ⟨h, if_neg h⟩

@[simp] theorem Engine.absorbByte_h : (e.absorbByte b).h = e.h := by
  rcases e.absorbByte_cases b with ⟨-, h⟩ | ⟨-, h⟩ <;> simp [h]

@[simp] theorem Engine.absorbByte_nbytes : (e.absorbByte b).nbytes = e.nbytes + 1 := by
  rcases e.absorbByte_cases b with ⟨-, h⟩ | ⟨-, h⟩ <;> simp [h]

/-- FILL counts mod 64 (R25, R126). -/
@[simp] theorem Engine.absorbByte_fill : (e.absorbByte b).fill = e.fill + 1 := by
  rcases e.absorbByte_cases b with ⟨hf, h⟩ | ⟨-, h⟩
  · simp [h, hf]
  · simp [h]

theorem Engine.absorbByte_errors :
    (e.absorbByte b).errIllegal = e.errIllegal ∧ (e.absorbByte b).errSeq = e.errSeq ∧
      (e.absorbByte b).errTooLarge = e.errTooLarge ∧ (e.absorbByte b).errOp = e.errOp ∧
      (e.absorbByte b).errArg = e.errArg := by
  rcases e.absorbByte_cases b with ⟨-, h⟩ | ⟨-, h⟩ <;> simp [h]

/-- The byte goes to position FILL and to no other (R126). -/
theorem Engine.absorbByte_bufByte {j : Nat} (hj : j < 64) :
    (e.absorbByte b).bufByte j = if j = e.fill.toNat then b else e.bufByte j := by
  rw [← Engine.writeAtFill_bufByte e b hj]
  rcases e.absorbByte_cases b with ⟨-, h⟩ | ⟨-, h⟩ <;> simp [h, Engine.bufByte]

/-- The three ways an ABSORBk body ends (R120). -/
theorem Engine.absorbBytes_cases (bs : List Byte) (op : Byte) (arg : Word) :
    (e.closed = true ∧ e.absorbBytes bs op arg = e.raise .seq op arg) ∨
      (e.closed = false ∧ Config.maxBytes < e.nbytes.toNat + bs.length ∧
        e.absorbBytes bs op arg = e.raise .tooLarge op arg) ∨
      (e.closed = false ∧ e.nbytes.toNat + bs.length ≤ Config.maxBytes ∧
        e.absorbBytes bs op arg = bs.foldl Engine.absorbByte e) := by
  unfold Engine.absorbBytes
  split
  · exact .inl ⟨‹_›, rfl⟩
  · split
    · exact .inr (.inl ⟨Bool.eq_false_iff.2 ‹_›, ‹_›, rfl⟩)
    · exact .inr (.inr ⟨Bool.eq_false_iff.2 ‹_›, by omega, rfl⟩)

end Absorb

section Fold

/-- What absorbing a list of bytes does to the counters and leaves alone (R120). -/
theorem Engine.foldl_absorbByte (bs : List Byte) (e : Engine) :
    (bs.foldl Engine.absorbByte e).h = e.h ∧
      (bs.foldl Engine.absorbByte e).nbytes = e.nbytes + BitVec.ofNat 64 bs.length ∧
      (bs.foldl Engine.absorbByte e).fill = e.fill + BitVec.ofNat 6 bs.length ∧
      (bs.foldl Engine.absorbByte e).errIllegal = e.errIllegal ∧
      (bs.foldl Engine.absorbByte e).errSeq = e.errSeq ∧
      (bs.foldl Engine.absorbByte e).errTooLarge = e.errTooLarge ∧
      (bs.foldl Engine.absorbByte e).errOp = e.errOp ∧
      (bs.foldl Engine.absorbByte e).errArg = e.errArg := by
  induction bs generalizing e with
  | nil => simp
  | cons b bs ih =>
    obtain ⟨h1, h2, h3, h4, h5, h6, h7, h8⟩ := ih (e.absorbByte b)
    obtain ⟨g4, g5, g6, g7, g8⟩ := e.absorbByte_errors b
    simp only [List.foldl_cons, List.length_cons, h1, h2, h3, h4, h5, h6, h7, h8, g4, g5, g6, g7,
      g8, Engine.absorbByte_h, Engine.absorbByte_nbytes, Engine.absorbByte_fill, true_and, and_true,
      and_self]
    constructor
    · simp only [BitVec.ofNat_add, BitVec.add_assoc]
      exact congrArg _ (BitVec.add_comm _ _)
    · simp only [BitVec.ofNat_add, BitVec.add_assoc]
      exact congrArg _ (BitVec.add_comm _ _)

end Fold

end Sys2Proof.Machine
end

