-- ==== Sys2Proof/Laws/Absorb.lean ====
section
/-! SUPPORT. What absorbing a list of bytes does to BUF and to the sequencer, said once for every list
that fits one block. -/

namespace Sys2Proof.Machine

/-- FILL after a byte, as a number (R25, R126). -/
theorem Engine.absorbByte_fill_toNat (e : Engine) (b : Byte) :
    (e.absorbByte b).fill.toNat = (e.fill.toNat + 1) % 64 := by
  simp [BitVec.toNat_add]

/-- A position no byte of the list goes to keeps its byte (R61). -/
theorem Engine.foldl_absorbByte_miss (bs : List Byte) (e : Engine) {j : Nat} (hj : j < 64)
    (h : ∀ n, n < bs.length → e.absorbPos n ≠ j) :
    (bs.foldl Engine.absorbByte e).bufByte j = e.bufByte j := by
  induction bs generalizing e with
  | nil => rfl
  | cons b bs ih =>
    have h0 := h 0 (by simp)
    have hf := e.fill.isLt
    simp only [Engine.absorbPos] at h h0
    rw [List.foldl_cons, ih, Engine.absorbByte_bufByte e b hj, if_neg (by omega)]
    intro n hn
    have h1 := h (n + 1) (by simpa using hn)
    simp only [Engine.absorbPos, Engine.absorbByte_fill_toNat]
    omega

/-- Byte n of the list goes to position FILL + n, round the boundary (R61, R126). -/
theorem Engine.foldl_absorbByte_hit (bs : List Byte) (e : Engine) (hl : bs.length ≤ 64) {n : Nat}
    (hn : n < bs.length) :
    (bs.foldl Engine.absorbByte e).bufByte (e.absorbPos n) = bs[n] := by
  induction bs generalizing e n with
  | nil => simp at hn
  | cons b bs ih =>
    have hf := e.fill.isLt
    simp only [List.length_cons] at hl hn
    cases n with
    | zero =>
      have hp : e.absorbPos 0 = e.fill.toNat := by simp only [Engine.absorbPos]; omega
      rw [List.foldl_cons, hp, Engine.foldl_absorbByte_miss _ _ hf,
        Engine.absorbByte_bufByte e b hf, if_pos rfl]
      · rfl
      · intro n hn'
        simp only [Engine.absorbPos, Engine.absorbByte_fill_toNat]
        omega
    | succ n =>
      have hp : e.absorbPos (n + 1) = (e.absorbByte b).absorbPos n := by
        simp only [Engine.absorbPos, Engine.absorbByte_fill_toNat]
        omega
      rw [List.foldl_cons, hp, ih _ (by omega) (by omega)]
      rfl

/-- A list that stays inside the block changes BUF, FILL and NBYTES only (R126). -/
theorem Engine.foldl_absorbByte_inside (bs : List Byte) (e : Engine)
    (h : e.fill.toNat + bs.length ≤ 63) :
    bs.foldl Engine.absorbByte e =
      { e with buf := (bs.foldl Engine.absorbByte e).buf
               fill := e.fill + BitVec.ofNat 6 bs.length
               nbytes := e.nbytes + BitVec.ofNat 64 bs.length } := by
  induction bs generalizing e with
  | nil => simp
  | cons b bs ih =>
    simp only [List.length_cons] at h
    obtain ⟨-, h2, h3, -⟩ := Engine.foldl_absorbByte (b :: bs) e
    rcases e.absorbByte_cases b with ⟨hf, -⟩ | ⟨-, hb⟩
    · rw [hf] at h
      simp at h
    · have hi := ih (e.absorbByte b) (by rw [Engine.absorbByte_fill_toNat]; omega)
      rw [← h2, ← h3, List.foldl_cons, hi, hb]
      rfl

/-- The block one byte completes at position 63 (R126). -/
theorem Engine.writeAtFill_completed (e : Engine) (b : Byte) (hf : e.fill = 63) :
    (e.writeAtFill b).buf = e.completedBlock [b] := by
  have h63 : e.fill.toNat = 63 := by rw [hf]; rfl
  apply Vector.ext
  intro j hj
  rw [← Engine.bufByte_eq _ hj, Engine.writeAtFill_bufByte e b hj, h63]
  simp only [Engine.completedBlock, Vector.getElem_ofFn, h63]
  by_cases h : j = 63
  · simp [h]
  · rw [if_neg h, if_pos (by omega)]

/-- The block a byte and then a list complete (R126). -/
theorem Engine.completedBlock_cons (e : Engine) (b : Byte) (bs : List Byte)
    (hf : e.fill.toNat ≠ 63) :
    (e.absorbByte b).completedBlock bs = e.completedBlock (b :: bs) := by
  have hlt := e.fill.isLt
  have ha : (e.absorbByte b).fill.toNat = e.fill.toNat + 1 := by
    rw [Engine.absorbByte_fill_toNat]
    omega
  apply Vector.ext
  intro j hj
  simp only [Engine.completedBlock, Vector.getElem_ofFn, ha, Engine.absorbByte_bufByte e b hj]
  by_cases h1 : j < e.fill.toNat
  · rw [if_pos (by omega), if_neg (by omega), if_pos h1]
  · by_cases h2 : j = e.fill.toNat
    · rw [if_pos (by omega), if_pos h2, if_neg h1, h2]
      simp
    · rw [if_neg (by omega), if_neg h1,
        show j - e.fill.toNat = j - (e.fill.toNat + 1) + 1 by omega]
      simp

/-- A list that reaches position 63 exactly starts the block it completes (R126, R140). -/
theorem Engine.foldl_absorbByte_completes (bs : List Byte) (e : Engine)
    (h : e.fill.toNat + bs.length = 64) :
    bs.foldl Engine.absorbByte e =
      Engine.blockStart
        { e with buf := e.completedBlock bs, fill := 0, next := .resume
                 nbytes := e.nbytes + BitVec.ofNat 64 bs.length } := by
  induction bs generalizing e with
  | nil =>
    have := e.fill.isLt
    simp at h
    omega
  | cons b bs ih =>
    simp only [List.length_cons] at h
    rcases e.absorbByte_cases b with ⟨hf, hb⟩ | ⟨hf, hb⟩
    · have h63 : e.fill.toNat = 63 := by rw [hf]; rfl
      obtain rfl : bs = [] := List.eq_nil_of_length_eq_zero (by omega)
      rw [List.foldl_cons, List.foldl_nil, hb, ← Engine.writeAtFill_completed e b hf]
      rfl
    · have h63 : e.fill.toNat ≠ 63 := fun hh => hf (BitVec.eq_of_toNat_eq hh)
      have hlt := e.fill.isLt
      have hn : e.nbytes + 1 + BitVec.ofNat 64 bs.length =
          e.nbytes + BitVec.ofNat 64 (b :: bs).length := by
        rw [List.length_cons, BitVec.ofNat_add, BitVec.add_assoc, BitVec.add_comm 1]
        rfl
      rw [List.foldl_cons, ih _ (by rw [Engine.absorbByte_fill_toNat]; omega),
        Engine.completedBlock_cons e b bs h63, Engine.absorbByte_nbytes, hn, hb]
      rfl

end Sys2Proof.Machine
end

