-- ==== Sys2Proof/Laws/Assembler.lean ====
section
/-! SUPPORT. The interleavings of a host's actions (R73, R252): the actions themselves where they hold no
turn of the engine, and a turn of the engine put in anywhere. -/

namespace Sys2Proof.Machine

/-- Actions with no turn of the engine among them are the interleaving without one. -/
theorem Interleaves.self {actions : List Action} (h : .engine ∉ actions) :
    Interleaves actions actions :=
  List.filter_eq_self.2 fun a ha => by
    simpa using fun he : a = .engine => h (he ▸ ha)

/-- One more turn of the engine, at any place, is an interleaving of the same actions. -/
theorem Interleaves.insert_engine {actions front back : List Action}
    (h : Interleaves actions (front ++ back)) :
    Interleaves actions (front ++ .engine :: back) := by
  simpa [Interleaves] using h

/-- A command the host issues holds no turn of the engine of its own (log entry 19). -/
theorem engine_not_mem_issueActions (i : Instr) : .engine ∉ issueActions i := by
  simp [issueActions, issueWordActions]

/-- Nor do the lines HASH and DIGEST (log entry 19). -/
theorem engine_not_mem_hashActions (s : List Byte) : .engine ∉ hashActions s := by
  simp [hashActions, engine_not_mem_issueActions]

theorem engine_not_mem_digestActions : .engine ∉ digestActions := by decide

/-- No line puts a turn of the engine on the agenda, so the actions of a line are an interleaving of
themselves (log entry 19). -/
theorem engine_not_mem_actions {l : HostLine} {actions : List Action}
    (h : l.actions = some actions) : .engine ∉ actions := by
  cases l <;> simp only [HostLine.actions] at h
  case absorb operands =>
    simp only [bind, Option.bind_eq_some_iff] at h
    obtain ⟨bs, -, i, -, h⟩ := h
    cases h
    exact engine_not_mem_issueActions i
  case absorbK k operands =>
    simp only [bind, Option.bind_eq_some_iff] at h
    obtain ⟨bs, -, i, -, h⟩ := h
    split at h <;> cases h
    exact engine_not_mem_issueActions i
  case absorbs s =>
    cases h
    simp [engine_not_mem_issueActions]
  case hash s =>
    cases h
    exact engine_not_mem_hashActions s
  case digest =>
    cases h
    exact engine_not_mem_digestActions
  all_goals
    cases h
    simp [issueActions, issueWordActions]

end Sys2Proof.Machine
end

