-- ==== Sys2Proof/Laws/Bytes.lean ====
section
/-! SUPPORT. The bits of the big-endian packings: words from bytes, command words from fields. -/

namespace Sys2Proof.Machine

/-- Bit n of `be32(b0, b1, b2, b3)`. -/
theorem be32_bit (b0 b1 b2 b3 : Byte) (n : Nat) :
    (be32 b0 b1 b2 b3).getLsbD n =
      if n < 8 then b3.getLsbD n
      else if n < 16 then b2.getLsbD (n - 8)
      else if n < 24 then b1.getLsbD (n - 16)
      else b0.getLsbD (n - 24) := by
  have h2 (x y : BitVec 8) (i : Nat) : BitVec.getLsbD (w := 16) (x ++ y) i =
      if i < 8 then y.getLsbD i else x.getLsbD (i - 8) := BitVec.getLsbD_append
  have h3 (x : BitVec 16) (y : BitVec 8) (i : Nat) : BitVec.getLsbD (w := 24) (x ++ y) i =
      if i < 8 then y.getLsbD i else x.getLsbD (i - 8) := BitVec.getLsbD_append
  have h4 (x : BitVec 24) (y : BitVec 8) (i : Nat) : BitVec.getLsbD (w := 32) (x ++ y) i =
      if i < 8 then y.getLsbD i else x.getLsbD (i - 8) := BitVec.getLsbD_append
  unfold be32
  rw [h4, h3, h2]
  by_cases h8 : n < 8
  · simp [h8]
  · by_cases h16 : n < 16
    · simp [h8, h16, show n - 8 < 8 by omega]
    · by_cases h24 : n < 24
      · rw [if_neg h8, if_neg (by omega), if_pos (by omega), if_neg h8, if_neg h16, if_pos h24,
          show n - 8 - 8 = n - 16 by omega]
      · rw [if_neg h8, if_neg (by omega), if_neg (by omega), if_neg h8, if_neg h16, if_neg h24,
          show n - 8 - 8 - 8 = n - 24 by omega]

/-- Lane i of a packed argument is byte i of the four it was packed from (R64). -/
theorem lane_be32 (b0 b1 b2 b3 : Byte) :
    lane (be32 b0 b1 b2 b3) 0 = b0 ∧ lane (be32 b0 b1 b2 b3) 1 = b1 ∧
      lane (be32 b0 b1 b2 b3) 2 = b2 ∧ lane (be32 b0 b1 b2 b3) 3 = b3 := by
  unfold lane
  refine ⟨?_, ?_, ?_, ?_⟩ <;> apply BitVec.eq_of_getLsbD_eq <;> intro i hi <;>
    simp only [BitVec.getLsbD_extractLsb', be32_bit, hi, decide_true, Bool.true_and]
  · rw [if_neg (by omega), if_neg (by omega), if_neg (by omega),
      show 24 - 8 * 0 + i - 24 = i by omega]
  · rw [if_neg (by omega), if_neg (by omega), if_pos (by omega),
      show 24 - 8 * 1 + i - 16 = i by omega]
  · rw [if_neg (by omega), if_pos (by omega), show 24 - 8 * 2 + i - 8 = i by omega]
  · rw [if_pos (by omega), show 24 - 8 * 3 + i = i by omega]

/-- A word is packed from its own lanes. -/
theorem be32_lane (v : Word) : be32 (lane v 0) (lane v 1) (lane v 2) (lane v 3) = v := by
  apply BitVec.eq_of_getLsbD_eq
  intro i hi
  rw [be32_bit]
  by_cases h8 : i < 8
  · simp [lane, h8]
  · by_cases h16 : i < 16
    · simp [lane, h8, h16, show i - 8 < 8 by omega, show 8 + (i - 8) = i by omega]
    · by_cases h24 : i < 24
      · simp [lane, h8, h16, h24, show i - 16 < 8 by omega, show 16 + (i - 16) = i by omega]
      · simp [lane, h8, h16, h24, show i - 24 < 8 by omega, show 24 + (i - 24) = i by omega]

/-- The lanes ABSORB1 does not use are the low bits of its argument (R92). -/
theorem be32_low24 (b0 : Byte) : (be32 b0 0#8 0#8 0#8).extractLsb' 0 24 = 0#24 := by
  ext i hi
  simp [be32_bit, hi]

/-- The lanes ABSORB2 does not use are the low bits of its argument (R92). -/
theorem be32_low16 (b0 b1 : Byte) : (be32 b0 b1 0#8 0#8).extractLsb' 0 16 = 0#16 := by
  ext i hi
  simp [be32_bit, hi]

/-- The lane ABSORB3 does not use is the low byte of its argument (R92). -/
theorem be32_low8 (b0 b1 b2 : Byte) : (be32 b0 b1 b2 0#8).extractLsb' 0 8 = 0#8 := by
  ext i hi
  simp [be32_bit, hi]

/-- Bit n of a command word packed from its two fields (R91). -/
theorem cmdWord_bit (op : Byte) (arg : Word) (n : Nat) :
    BitVec.getLsbD (w := 40) (op ++ arg) n =
      if n < 32 then arg.getLsbD n else op.getLsbD (n - 32) :=
  BitVec.getLsbD_append

/-- The fields of a command word packed from its two fields (R91). -/
theorem fields_append (op : Byte) (arg : Word) :
    opField (op ++ arg) = op ∧ argField (op ++ arg) = arg := by
  unfold opField argField
  constructor <;> ext i hi <;> simp [cmdWord_bit, hi]

/-- A command word is packed from its own fields (R91). -/
theorem append_fields (w : CmdWord) : opField w ++ argField w = w := by
  apply BitVec.eq_of_getLsbD_eq
  intro i hi
  refine (cmdWord_bit _ _ _).trans ?_
  by_cases h : i < 32
  · simp [argField, h]
  · simp [opField, h, show i - 32 < 8 by omega, show 32 + (i - 32) = i by omega]

end Sys2Proof.Machine
end

