-- ==== Sys2Proof/Laws/Compress.lean ====
section
/-! SUPPORT. The engine steps: ROUND and ACCUM by the round counter, and what no engine step changes. -/

namespace Sys2Proof.Machine

variable (e : Engine)

/-- An engine step with T < 80 is ROUND (R200). -/
theorem Engine.step_round (h : e.t.toNat < 80) : e.step = e.round := by
  simp [Engine.step, Config.rounds, h]

/-- An engine step with T = 80 is ACCUM (R200). -/
theorem Engine.step_accum (h : ¬ e.t.toNat < 80) : e.step = e.accum := by
  simp [Engine.step, Config.rounds, h]

/-- ACCUM with NEXT = RESUME (R205, R206). -/
theorem Engine.accum_resume (h : e.next = .resume) :
    e.accum = { e with h := e.sumH, mode := .ready, t := 0 } := by
  simp [Engine.accum, Engine.continueSeq, h]

/-- ACCUM with NEXT = SECOND (R205, R206). -/
theorem Engine.accum_second (h : e.next = .second) :
    e.accum = Engine.blockStart { e with h := e.sumH, next := .finish } := by
  simp [Engine.accum, Engine.continueSeq, h]

/-- ACCUM with NEXT = FINISH (R205, R206). -/
theorem Engine.accum_finish (h : e.next = .finish) :
    e.accum = { e with h := e.sumH, mode := .done, next := .resume, t := 0 } := by
  simp [Engine.accum, Engine.continueSeq, h]

/-- ACCUM adds A..E into H, whatever follows (R205). -/
@[simp] theorem Engine.accum_h : e.accum.h = e.sumH := by
  unfold Engine.accum Engine.continueSeq
  split <;> simp

/-- No engine step changes BUF, FILL, NBYTES or the error record (R203, R205). -/
theorem Engine.step_frame :
    e.step.buf = e.buf ∧ e.step.fill = e.fill ∧ e.step.nbytes = e.nbytes ∧
      e.step.errIllegal = e.errIllegal ∧ e.step.errSeq = e.errSeq ∧
      e.step.errTooLarge = e.errTooLarge ∧ e.step.errOp = e.errOp ∧ e.step.errArg = e.errArg := by
  by_cases h : e.t.toNat < 80
  · simp [e.step_round h]
  · rw [e.step_accum h]
    unfold Engine.accum Engine.continueSeq
    split <;> simp

/-- T after ROUND (R203). -/
theorem Engine.round_t_toNat (h : e.t.toNat < 80) : e.round.t.toNat = e.t.toNat + 1 := by
  rw [Engine.round_t, BitVec.toNat_add]
  simp
  omega

theorem Engine.steps_zero : e.steps 0 = e := rfl

theorem Engine.steps_succ (n : Nat) : e.steps (n + 1) = (e.steps n).step :=
  Function.iterate_succ_apply' ..

theorem Engine.steps_add (m n : Nat) : e.steps (m + n) = (e.steps n).steps m :=
  Function.iterate_add_apply ..

theorem Engine.steps_succ_first (n : Nat) : e.steps (n + 1) = e.step.steps n := by
  rw [Engine.steps_add]
  rfl

/-- An engine that is not BUSY has no steps left, and a BUSY one has some (R207). -/
theorem Engine.stepsLeft_pos_iff : 0 < e.stepsLeft ↔ e.mode = .busy := by
  unfold Engine.stepsLeft
  split
  · simp [*]
  · simp [*]

/-- An engine step while BUSY is one step less to go (R207). -/
theorem Engine.stepsLeft_step (hb : e.mode = .busy) : e.step.stepsLeft + 1 = e.stepsLeft := by
  by_cases h : e.t.toNat < 80
  · have ht := e.round_t_toNat h
    rw [e.step_round h]
    by_cases hn : e.next = .second <;>
      simp only [Engine.stepsLeft, Engine.round_mode, Engine.round_next, hb, hn, ht, if_true,
        if_false] <;> omega
  · rw [e.step_accum h]
    cases hn : e.next
    · rw [e.accum_resume hn]
      simp [Engine.stepsLeft, hb, hn]
      omega
    · rw [e.accum_second hn]
      simp [Engine.stepsLeft, hb, hn]
      omega
    · rw [e.accum_finish hn]
      simp [Engine.stepsLeft, hb, hn]
      omega

/-- The engine once its steps are done is not BUSY (R207). -/
theorem Engine.steps_stepsLeft_ready (e : Engine) : (e.steps e.stepsLeft).mode ≠ .busy := by
  generalize hn : e.stepsLeft = n
  induction n generalizing e with
  | zero =>
    intro hb
    have := (Engine.stepsLeft_pos_iff e).2 hb
    omega
  | succ n ih =>
    have hb : e.mode = .busy := (Engine.stepsLeft_pos_iff e).1 (by omega)
    have hl := Engine.stepsLeft_step e hb
    rw [Engine.steps_succ_first]
    exact ih e.step (by omega)

end Sys2Proof.Machine
end

