-- ==== Sys2Proof/Laws/Decode.lean ====
section
/-! SUPPORT. What it means that the decoder reads a command from a word: the word's two fields are the
command's opcode and argument. -/

namespace Sys2Proof

/-- Low bits that read zero as a field are zero as bits. -/
theorem low_bits_zero {v : Word} {k n : Nat} (h : v.extractLsb' 0 k = 0#k) (hn : n < k) :
    v.getLsbD n = false := by
  have := congrArg (fun x => x.getLsbD n) h
  simpa [hn] using this

/-- ABSORB1 leaves lanes 1 to 3 of its word zero (R93). -/
theorem arg_of_low24 {v : Word} (h : v.extractLsb' 0 24 = 0#24) :
    v = Machine.be32 (Machine.lane v 0) 0 0 0 := by
  apply BitVec.eq_of_getLsbD_eq
  intro n hn
  by_cases h24 : n < 24
  · simp [Machine.be32_bit, low_bits_zero h h24, h24]
  · conv_lhs => rw [← Machine.be32_lane v]
    simp [Machine.be32_bit, h24, show ¬ n < 8 by omega, show ¬ n < 16 by omega]

/-- ABSORB2 leaves lanes 2 and 3 of its word zero (R93). -/
theorem arg_of_low16 {v : Word} (h : v.extractLsb' 0 16 = 0#16) :
    v = Machine.be32 (Machine.lane v 0) (Machine.lane v 1) 0 0 := by
  apply BitVec.eq_of_getLsbD_eq
  intro n hn
  by_cases h16 : n < 16
  · simp [Machine.be32_bit, low_bits_zero h h16, h16]
  · conv_lhs => rw [← Machine.be32_lane v]
    simp [Machine.be32_bit, h16, show ¬ n < 8 by omega]

/-- ABSORB3 leaves lane 3 of its word zero (R93). -/
theorem arg_of_low8 {v : Word} (h : v.extractLsb' 0 8 = 0#8) :
    v = Machine.be32 (Machine.lane v 0) (Machine.lane v 1) (Machine.lane v 2) 0 := by
  apply BitVec.eq_of_getLsbD_eq
  intro n hn
  by_cases h8 : n < 8
  · simp [Machine.be32_bit, low_bits_zero h h8, h8]
  · conv_lhs => rw [← Machine.be32_lane v]
    simp [Machine.be32_bit, h8]

/-- The fields of a word that decodes to a command. -/
theorem decode_command {w : CmdWord} {i : Instr} (h : decode w = .command i) :
    Machine.opField w = i.op ∧ Machine.argField w = i.arg := by
  simp only [decode] at h
  split at h
  · split at h <;> cases h
    exact ⟨‹_›, ‹_›⟩
  split at h
  · split at h <;> cases h
    exact ⟨‹_›, ‹_›⟩
  split at h
  · split at h <;> cases h
    exact ⟨‹_›, arg_of_low24 ‹_›⟩
  split at h
  · split at h <;> cases h
    exact ⟨‹_›, arg_of_low16 ‹_›⟩
  split at h
  · split at h <;> cases h
    exact ⟨‹_›, arg_of_low8 ‹_›⟩
  split at h
  · cases h
    exact ⟨‹_›, (Machine.be32_lane _).symm⟩
  split at h
  · split at h <;> cases h
    exact ⟨‹_›, ‹_›⟩
  cases h

/-- The fields of a command's own word. -/
theorem encode_fields (i : Instr) :
    Machine.opField (encode i) = i.op ∧ Machine.argField (encode i) = i.arg :=
  Machine.fields_append _ _

/-- Only the word of INIT decodes to INIT. -/
theorem decode_init {w : CmdWord} (h : decode w = .command .init) : w = encode .init := by
  rw [encode, ← (decode_command h).1, ← (decode_command h).2]
  exact (Machine.append_fields w).symm

end Sys2Proof
end

