-- ==== Sys2Proof/Laws/Padding.lean ====
section
/-! SUPPORT. The padding unit: one lemma for each field of each of its writes, the bytes each write
leaves in BUF, and the fields after FINAL's padding. -/

namespace Sys2Proof.Machine

variable (e : Engine)

@[simp] theorem Engine.writeFlag_h : (e.writeFlag).h = e.h := by simp only [Engine.writeFlag]
@[simp] theorem Engine.writeFlag_x : (e.writeFlag).x = e.x := by simp only [Engine.writeFlag]
@[simp] theorem Engine.writeFlag_w : (e.writeFlag).w = e.w := by simp only [Engine.writeFlag]
@[simp] theorem Engine.writeFlag_fill : (e.writeFlag).fill = e.fill := by simp only [Engine.writeFlag]
@[simp] theorem Engine.writeFlag_nbytes : (e.writeFlag).nbytes = e.nbytes := by simp only [Engine.writeFlag]
@[simp] theorem Engine.writeFlag_t : (e.writeFlag).t = e.t := by simp only [Engine.writeFlag]
@[simp] theorem Engine.writeFlag_next : (e.writeFlag).next = e.next := by simp only [Engine.writeFlag]
@[simp] theorem Engine.writeFlag_mode : (e.writeFlag).mode = e.mode := by simp only [Engine.writeFlag]
@[simp] theorem Engine.writeFlag_errIllegal : (e.writeFlag).errIllegal = e.errIllegal := by simp only [Engine.writeFlag]
@[simp] theorem Engine.writeFlag_errSeq : (e.writeFlag).errSeq = e.errSeq := by simp only [Engine.writeFlag]
@[simp] theorem Engine.writeFlag_errTooLarge : (e.writeFlag).errTooLarge = e.errTooLarge := by simp only [Engine.writeFlag]
@[simp] theorem Engine.writeFlag_errOp : (e.writeFlag).errOp = e.errOp := by simp only [Engine.writeFlag]
@[simp] theorem Engine.writeFlag_errArg : (e.writeFlag).errArg = e.errArg := by simp only [Engine.writeFlag]

@[simp] theorem Engine.writeLength_h (l : BitVec 64) : (e.writeLength l).h = e.h := by simp only [Engine.writeLength]
@[simp] theorem Engine.writeLength_x (l : BitVec 64) : (e.writeLength l).x = e.x := by simp only [Engine.writeLength]
@[simp] theorem Engine.writeLength_w (l : BitVec 64) : (e.writeLength l).w = e.w := by simp only [Engine.writeLength]
@[simp] theorem Engine.writeLength_fill (l : BitVec 64) : (e.writeLength l).fill = e.fill := by simp only [Engine.writeLength]
@[simp] theorem Engine.writeLength_nbytes (l : BitVec 64) : (e.writeLength l).nbytes = e.nbytes := by simp only [Engine.writeLength]
@[simp] theorem Engine.writeLength_t (l : BitVec 64) : (e.writeLength l).t = e.t := by simp only [Engine.writeLength]
@[simp] theorem Engine.writeLength_next (l : BitVec 64) : (e.writeLength l).next = e.next := by simp only [Engine.writeLength]
@[simp] theorem Engine.writeLength_mode (l : BitVec 64) : (e.writeLength l).mode = e.mode := by simp only [Engine.writeLength]
@[simp] theorem Engine.writeLength_errIllegal (l : BitVec 64) : (e.writeLength l).errIllegal = e.errIllegal := by simp only [Engine.writeLength]
@[simp] theorem Engine.writeLength_errSeq (l : BitVec 64) : (e.writeLength l).errSeq = e.errSeq := by simp only [Engine.writeLength]
@[simp] theorem Engine.writeLength_errTooLarge (l : BitVec 64) : (e.writeLength l).errTooLarge = e.errTooLarge := by simp only [Engine.writeLength]
@[simp] theorem Engine.writeLength_errOp (l : BitVec 64) : (e.writeLength l).errOp = e.errOp := by simp only [Engine.writeLength]
@[simp] theorem Engine.writeLength_errArg (l : BitVec 64) : (e.writeLength l).errArg = e.errArg := by simp only [Engine.writeLength]

@[simp] theorem Engine.clearData_h : (e.clearData).h = e.h := by simp only [Engine.clearData]
@[simp] theorem Engine.clearData_x : (e.clearData).x = e.x := by simp only [Engine.clearData]
@[simp] theorem Engine.clearData_w : (e.clearData).w = e.w := by simp only [Engine.clearData]
@[simp] theorem Engine.clearData_fill : (e.clearData).fill = e.fill := by simp only [Engine.clearData]
@[simp] theorem Engine.clearData_nbytes : (e.clearData).nbytes = e.nbytes := by simp only [Engine.clearData]
@[simp] theorem Engine.clearData_t : (e.clearData).t = e.t := by simp only [Engine.clearData]
@[simp] theorem Engine.clearData_next : (e.clearData).next = e.next := by simp only [Engine.clearData]
@[simp] theorem Engine.clearData_mode : (e.clearData).mode = e.mode := by simp only [Engine.clearData]
@[simp] theorem Engine.clearData_errIllegal : (e.clearData).errIllegal = e.errIllegal := by simp only [Engine.clearData]
@[simp] theorem Engine.clearData_errSeq : (e.clearData).errSeq = e.errSeq := by simp only [Engine.clearData]
@[simp] theorem Engine.clearData_errTooLarge : (e.clearData).errTooLarge = e.errTooLarge := by simp only [Engine.clearData]
@[simp] theorem Engine.clearData_errOp : (e.clearData).errOp = e.errOp := by simp only [Engine.clearData]
@[simp] theorem Engine.clearData_errArg : (e.clearData).errArg = e.errArg := by simp only [Engine.clearData]

/-- BUF after the flag byte and the zeros after it (R130). -/
theorem Engine.writeFlag_bufByte {j : Nat} (hj : j < 64) :
    e.writeFlag.bufByte j =
      if j < e.fill.toNat then e.bufByte j else if j = e.fill.toNat then 0x80 else 0x00 := by
  rw [Engine.bufByte_eq _ hj]
  simp [Engine.writeFlag]

/-- BUF after the length field (R130). -/
theorem Engine.writeLength_bufByte (l : BitVec 64) {j : Nat} (hj : j < 64) :
    (e.writeLength l).bufByte j = if j < 56 then e.bufByte j else be64Byte l (j - 56) := by
  rw [Engine.bufByte_eq _ hj]
  simp [Engine.writeLength]

/-- BUF after the data positions are cleared (R130). -/
theorem Engine.clearData_bufByte {j : Nat} (hj : j < 64) :
    e.clearData.bufByte j = if j < 56 then 0x00 else e.bufByte j := by
  rw [Engine.bufByte_eq _ hj]
  simp [Engine.clearData]

/-- FINAL's padding in one block (R130). -/
theorem Engine.pad_one (h : e.fill.toNat ≤ 55) :
    e.pad = Engine.blockStart
      { Engine.writeLength { e.writeFlag with fill := 0 } e.bitLength with next := .finish } := by
  simp [Engine.pad, h]

/-- FINAL's padding in two blocks (R130). -/
theorem Engine.pad_two (h : 56 ≤ e.fill.toNat) :
    e.pad = (Engine.blockStart
      { e.writeFlag with fill := 0, next := .second }).clearData.writeLength e.bitLength := by
  simp [Engine.pad, show ¬ e.fill.toNat ≤ 55 by omega]

/-- A byte of BUF depends on BUF only. -/
theorem Engine.bufByte_congr {e e' : Engine} (h : e.buf = e'.buf) (j : Nat) :
    e.bufByte j = e'.bufByte j := by
  simp only [Engine.bufByte, h]

/-- BUF after FINAL's padding in one block (R130). -/
theorem Engine.pad_one_bufByte (h : e.fill.toNat ≤ 55) {j : Nat} (hj : j < 64) :
    e.pad.bufByte j =
      if j < e.fill.toNat then e.bufByte j
      else if j = e.fill.toNat then 0x80
      else if j < 56 then 0x00 else be64Byte e.bitLength (j - 56) := by
  rw [e.pad_one h, Engine.bufByte_congr
    (e' := Engine.writeLength { e.writeFlag with fill := 0 } e.bitLength)
    (by simp only [Engine.blockStart_buf]), Engine.writeLength_bufByte _ _ hj,
    Engine.bufByte_congr (e' := e.writeFlag) (by simp only), Engine.writeFlag_bufByte e hj]
  by_cases h1 : j < 56
  · simp only [h1, if_true]
  · rw [if_neg h1, if_neg (by omega), if_neg (by omega), if_neg h1]

/-- BUF after FINAL's padding in two blocks: the second block, built while the first is compressed
(R130). -/
theorem Engine.pad_two_bufByte (h : 56 ≤ e.fill.toNat) {j : Nat} (hj : j < 64) :
    e.pad.bufByte j = if j < 56 then 0x00 else be64Byte e.bitLength (j - 56) := by
  rw [e.pad_two h, Engine.writeLength_bufByte _ _ hj, Engine.clearData_bufByte _ hj]
  by_cases h1 : j < 56 <;> simp only [h1, if_true, if_false]

/-- W after FINAL's padding in one block (R140). -/
theorem Engine.pad_one_w (h : e.fill.toNat ≤ 55) :
    e.pad.w = Vector.ofFn fun n : Fin 16 => Source.blockWord e.pad.block n.val := by
  have hb : e.pad.block = (Engine.writeLength { e.writeFlag with fill := 0 } e.bitLength).buf := by
    rw [Engine.block, e.pad_one h, Engine.blockStart_buf]
  rw [hb, e.pad_one h]
  apply Vector.ext
  intro j hj
  rw [Engine.blockStart_w _ hj, Vector.getElem_ofFn]
  rfl

/-- W after FINAL's padding in two blocks: the first of them (R140). -/
theorem Engine.pad_two_w (h : 56 ≤ e.fill.toNat) :
    e.pad.w =
      Vector.ofFn fun n : Fin 16 => Source.blockWord (e.flaggedBlock e.fill.toNat) n.val := by
  rw [e.pad_two h, Engine.writeLength_w, Engine.clearData_w]
  apply Vector.ext
  intro j hj
  rw [Engine.blockStart_w _ hj, Vector.getElem_ofFn]
  rfl

/-- What FINAL's padding leaves alone, and the fields it sets the same way in both cases. -/
theorem Engine.pad_fields :
    e.pad.h = e.h ∧ e.pad.x = e.h ∧ e.pad.fill = 0 ∧ e.pad.nbytes = e.nbytes ∧ e.pad.t = 0 ∧
      e.pad.mode = .busy ∧ e.pad.next = (if e.fill.toNat ≤ 55 then .finish else .second) ∧
      e.pad.errIllegal = e.errIllegal ∧ e.pad.errSeq = e.errSeq ∧
      e.pad.errTooLarge = e.errTooLarge ∧ e.pad.errOp = e.errOp ∧ e.pad.errArg = e.errArg := by
  by_cases h : e.fill.toNat ≤ 55
  · simp [e.pad_one h, h]
  · simp [e.pad_two (by omega), h]

end Sys2Proof.Machine
end

