-- ==== Sys2Proof/Laws/Step.lean ====
section
/-! SUPPORT. What one step of the machine can do, said once: its effect on the engine by the kind of
move, and that it always answers a next state. -/

namespace Sys2Proof.Machine

/-- A command through the port always answers a next state. -/
theorem exec_next (i : Instr) (s : State) :
    exec i s = .next (if s.engine.mode = .busy then s
      else { s with engine := effect i s.engine }) := by
  rw [exec_eq_effect, whenReady]
  split <;> rfl

theorem takeWord_ready {s : State} (w : CmdWord) (h : s.engine.mode ≠ .busy) :
    takeWord w s =
      .next { s.withCmdWord none with engine := wordEffect w s.engine } := by
  unfold takeWord wordEffect
  cases hd : decode w with
  | command i => simp [exec_next, h]
  | illegal why => simp

theorem engineTurn_busy {s : State} (h : s.engine.mode = .busy) :
    engineTurn s = .next { s with engine := s.engine.step } := by
  simp [engineTurn, h]

theorem engineTurn_take {s : State} {w : CmdWord} (h : s.engine.mode ≠ .busy)
    (hw : s.host.cmdWord = some w) :
    engineTurn s = .next { s.withCmdWord none with engine := wordEffect w s.engine } := by
  simp [engineTurn, h, hw, takeWord_ready w h]

theorem engineTurn_idle {s : State} (h : s.engine.mode ≠ .busy) (hw : s.host.cmdWord = none) :
    engineTurn s = .next s := by
  simp [engineTurn, h, hw]

theorem issueWord_ready {s : State} (w : CmdWord) (h : s.engine.mode ≠ .busy) :
    issueWord w s = .next { s.withCmdWord none with engine := wordEffect w s.engine } := by
  simp [issueWord, h, takeWord_ready w h]

theorem issueWord_busy {s : State} (w : CmdWord) (h : s.engine.mode = .busy) :
    issueWord w s = .next (s.withCmdWord (some w)) := by
  simp [issueWord, h]

section Move

variable {s : State} {rest : List Action} {w : CmdWord}

theorem step_nil (h : s.host.agenda = []) : step s = engineTurn s := by
  simp [step, move, h]

theorem step_engine (h : s.host.agenda = .engine :: rest) :
    step s = engineTurn (s.withAgenda rest) := by
  simp [step, move, h]

theorem step_reset (h : s.host.agenda = .reset :: rest) :
    step s = .next (resetEngine (s.withAgenda rest)) := by
  simp [step, move, h]

theorem step_read {idx : BitVec 8} (h : s.host.agenda = .read idx :: rest) :
    step s = .next (readReg idx (s.withAgenda rest)) := by
  simp [step, move, h]

theorem step_issue_free (h : s.host.agenda = .issue w :: rest) (hw : s.host.cmdWord = none) :
    step s = issueWord w (s.withAgenda rest) := by
  simp [step, move, h, hw]

theorem step_issue_held {v : CmdWord} (h : s.host.agenda = .issue w :: rest)
    (hw : s.host.cmdWord = some v) : step s = engineTurn s := by
  simp [step, move, h, hw]

theorem step_sync_free (h : s.host.agenda = .sync :: rest) (hw : s.host.cmdWord = none) :
    step s = .next (s.withAgenda rest) := by
  simp [step, move, h, hw]

theorem step_sync_held {v : CmdWord} (h : s.host.agenda = .sync :: rest)
    (hw : s.host.cmdWord = some v) : step s = engineTurn s := by
  simp [step, move, h, hw]

theorem step_wait_busy (h : s.host.agenda = .wait :: rest) (hb : s.engine.mode = .busy) :
    step s = .next (readReg 0x00 (s.withAgenda (.engine :: .wait :: rest))) := by
  simp [step, move, h, hb]

theorem step_wait_ready (h : s.host.agenda = .wait :: rest) (hb : s.engine.mode ≠ .busy) :
    step s = .next (readReg 0x00 (s.withAgenda rest)) := by
  simp [step, move, h, hb]

end Move

/-- The effect of the turn of the engine's side on the engine. -/
theorem engineTurn_engine (s : State) :
    ∃ t, engineTurn s = .next t ∧
      ((s.engine.mode = .busy ∧ t.engine = s.engine.step) ∨
        (s.engine.mode ≠ .busy ∧ ∃ w, s.host.cmdWord = some w ∧
          t.engine = wordEffect w s.engine) ∨
        (s.engine.mode ≠ .busy ∧ s.host.cmdWord = none ∧ t.engine = s.engine)) := by
  by_cases hb : s.engine.mode = .busy
  · exact ⟨_, engineTurn_busy hb, .inl ⟨hb, rfl⟩⟩
  · cases hw : s.host.cmdWord with
    | some w => exact ⟨_, engineTurn_take hb hw, .inr (.inl ⟨hb, w, rfl, rfl⟩)⟩
    | none => exact ⟨_, engineTurn_idle hb hw, .inr (.inr ⟨hb, rfl, rfl⟩)⟩

/-- What one step does to the engine: one of a reset, an engine step, a word taken, or nothing; and
which of them is said by `resets`, `engineSteps` and `takes`. -/
theorem step_engine_cases (s : State) :
    ∃ t, step s = .next t ∧
      ((s.resets = true ∧ t.engine = Engine.reset) ∨
        (s.resets = false ∧ s.engineSteps = true ∧ s.engine.mode = .busy ∧
          t.engine = s.engine.step) ∨
        (s.resets = false ∧ s.engineSteps = false ∧ s.engine.mode ≠ .busy ∧
          ∃ w, s.takes = some w ∧ t.engine = wordEffect w s.engine) ∨
        (s.resets = false ∧ s.engineSteps = false ∧ s.takes = none ∧ t.engine = s.engine)) := by
  have hr : ∀ a rest, s.host.agenda = a :: rest → a ≠ .reset → s.resets = false := by
    intro a rest h ha
    simp [State.resets, h, ha]
  match h : s.host.agenda with
  | [] =>
    obtain ⟨t, ht, hc⟩ := engineTurn_engine s
    refine ⟨t, (step_nil h).trans ht, .inr ?_⟩
    have hn : s.resets = false := by simp [State.resets, h]
    rcases hc with ⟨hb, he⟩ | ⟨hb, w, hw, he⟩ | ⟨hb, hw, he⟩
    · exact .inl ⟨hn, by simp [State.engineSteps, h, hb], hb, he⟩
    · exact .inr (.inl ⟨hn, by simp [State.engineSteps, hb], hb, w,
        by simp [State.takes, h, hb, hw], he⟩)
    · exact .inr (.inr ⟨hn, by simp [State.engineSteps, hb],
        by simp [State.takes, h, hb, hw], he⟩)
  | .engine :: rest =>
    obtain ⟨t, ht, hc⟩ := engineTurn_engine (s.withAgenda rest)
    refine ⟨t, (step_engine h).trans ht, .inr ?_⟩
    have hn := hr _ _ h (by decide)
    rcases hc with ⟨hb, he⟩ | ⟨hb, w, hw, he⟩ | ⟨hb, hw, he⟩ <;> simp at hb he
    · exact .inl ⟨hn, by simp [State.engineSteps, h, hb], hb, he⟩
    · simp at hw
      exact .inr (.inl ⟨hn, by simp [State.engineSteps, hb], hb, w,
        by simp [State.takes, h, hb, hw], he⟩)
    · simp at hw
      exact .inr (.inr ⟨hn, by simp [State.engineSteps, hb],
        by simp [State.takes, h, hb, hw], he⟩)
  | .reset :: rest =>
    exact ⟨_, step_reset h, .inl ⟨by simp [State.resets, h], rfl⟩⟩
  | .read idx :: rest =>
    exact ⟨_, step_read h, .inr (.inr (.inr ⟨hr _ _ h (by simp), by simp [State.engineSteps, h],
      by simp [State.takes, h], rfl⟩))⟩
  | .wait :: rest =>
    have hn := hr _ _ h (by decide)
    by_cases hb : s.engine.mode = .busy
    · exact ⟨_, step_wait_busy h hb, .inr (.inr (.inr ⟨hn, by simp [State.engineSteps, h],
        by simp [State.takes, h], rfl⟩))⟩
    · exact ⟨_, step_wait_ready h hb, .inr (.inr (.inr ⟨hn, by simp [State.engineSteps, h],
        by simp [State.takes, h], rfl⟩))⟩
  | .sync :: rest =>
    have hn := hr _ _ h (by decide)
    cases hw : s.host.cmdWord with
    | none =>
      exact ⟨_, step_sync_free h hw, .inr (.inr (.inr ⟨hn, by simp [State.engineSteps, h, hw],
        by simp [State.takes, h, hw], rfl⟩))⟩
    | some v =>
      obtain ⟨t, ht, hc⟩ := engineTurn_engine s
      refine ⟨t, (step_sync_held h hw).trans ht, .inr ?_⟩
      rcases hc with ⟨hb, he⟩ | ⟨hb, w, hw', he⟩ | ⟨hb, hw', he⟩
      · exact .inl ⟨hn, by simp [State.engineSteps, h, hb, hw], hb, he⟩
      · exact .inr (.inl ⟨hn, by simp [State.engineSteps, hb], hb, w,
          by simp [State.takes, h, hb, hw'], he⟩)
      · simp [hw] at hw'
  | .issue v :: rest =>
    have hn := hr _ _ h (by simp)
    cases hw : s.host.cmdWord with
    | none =>
      by_cases hb : s.engine.mode = .busy
      · exact ⟨_, (step_issue_free h hw).trans (issueWord_busy v hb),
          .inr (.inr (.inr ⟨hn, by simp [State.engineSteps, h, hw],
            by simp [State.takes, hb], rfl⟩))⟩
      · exact ⟨_, (step_issue_free h hw).trans (issueWord_ready v hb),
          .inr (.inr (.inl ⟨hn, by simp [State.engineSteps, hb], hb, v,
            by simp [State.takes, h, hb, hw], rfl⟩))⟩
    | some u =>
      obtain ⟨t, ht, hc⟩ := engineTurn_engine s
      refine ⟨t, (step_issue_held h hw).trans ht, .inr ?_⟩
      rcases hc with ⟨hb, he⟩ | ⟨hb, w, hw', he⟩ | ⟨hb, hw', he⟩
      · exact .inl ⟨hn, by simp [State.engineSteps, h, hb, hw], hb, he⟩
      · exact .inr (.inl ⟨hn, by simp [State.engineSteps, hb], hb, w,
          by simp [State.takes, h, hb, hw'], he⟩)
      · simp [hw] at hw'

/-- The inversion of a step: what it did to the engine. -/
theorem step_cases {s t : State} (h : step s = .next t) :
    (s.resets = true ∧ t.engine = Engine.reset) ∨
      (s.resets = false ∧ s.engineSteps = true ∧ s.engine.mode = .busy ∧
        t.engine = s.engine.step) ∨
      (s.resets = false ∧ s.engineSteps = false ∧ s.engine.mode ≠ .busy ∧
        ∃ w, s.takes = some w ∧ t.engine = wordEffect w s.engine) ∨
      (s.resets = false ∧ s.engineSteps = false ∧ s.takes = none ∧ t.engine = s.engine) := by
  obtain ⟨t', ht, hc⟩ := step_engine_cases s
  cases Host.Outcome.next.inj (ht.symm.trans h)
  exact hc

/-- A step that resets takes no word. -/
theorem takes_of_resets {s : State} (h : s.resets = true) : s.takes = none := by
  unfold State.resets at h
  unfold State.takes
  split
  · rfl
  · split <;> simp_all

end Sys2Proof.Machine
end

