-- ==== Sys2Proof/Laws/Commands.lean ====
section
/-! SUPPORT. What each taken command does to the engine, said once: the error record, the closed
message, and the cases of a word the port takes. -/

namespace Sys2Proof.Machine

section Raise

variable (e : Engine) (op : Byte) (arg : Word)

/-- The whole state after Error(ILLEGAL) (R302). -/
theorem Engine.raise_illegal : e.raise .illegal op arg =
    { e with errIllegal := true, errOp := if e.anyError then e.errOp else op
             errArg := if e.anyError then e.errArg else arg } := by
  unfold Engine.raise Engine.capture
  split <;> simp_all [Engine.setError]

/-- The whole state after Error(SEQ) (R302). -/
theorem Engine.raise_seq : e.raise .seq op arg =
    { e with errSeq := true, errOp := if e.anyError then e.errOp else op
             errArg := if e.anyError then e.errArg else arg } := by
  unfold Engine.raise Engine.capture
  split <;> simp_all [Engine.setError]

/-- The whole state after Error(TOOLARGE) (R302, R305). -/
theorem Engine.raise_tooLarge : e.raise .tooLarge op arg =
    { e with errTooLarge := true, mode := .error, errOp := if e.anyError then e.errOp else op
             errArg := if e.anyError then e.errArg else arg } := by
  unfold Engine.raise Engine.capture
  split <;> simp_all [Engine.setError]

end Raise

theorem Engine.closed_iff (e : Engine) : e.closed = true ↔ e.mode = .done ∨ e.mode = .error := by
  simp [Engine.closed]

/-- The four ABSORB commands are one body over their bytes (R120). -/
theorem effect_absorb {i : Instr} (h : i.isAbsorb = true) (e : Engine) :
    effect i e = e.absorbBytes i.bytes i.op i.arg := by
  cases i <;> simp [Instr.isAbsorb] at h <;> rfl

/-- In a closed message ABSORBk and FINAL only raise SEQ (R304). -/
theorem effect_closed {i : Instr} {e : Engine} (h : i.isAbsorb = true ∨ i = .final)
    (hc : e.mode = .done ∨ e.mode = .error) : effect i e = e.raise .seq i.op i.arg := by
  rcases h with h | rfl
  · rw [effect_absorb h, Engine.absorbBytes, if_pos (e.closed_iff.2 hc)]
  · simp [effect, Engine.final, e.closed_iff.2 hc, Instr.op, Instr.arg]

/-- In an open message within the bound ABSORBk absorbs its bytes (R120). -/
theorem effect_absorb_open {i : Instr} {e : Engine} (h : i.isAbsorb = true) (hm : e.mode = .ready)
    (hb : e.nbytes.toNat + i.bytes.length ≤ Config.maxBytes) :
    effect i e = i.bytes.foldl Engine.absorbByte e := by
  rw [effect_absorb h, Engine.absorbBytes, if_neg (by simp [Engine.closed, hm]), if_neg (by omega)]

/-- The ways a word the port takes can act on the engine: INIT; NOP; an error; an ABSORBk or a FINAL in
a message that is not closed. -/
theorem wordEffect_cases (w : CmdWord) (e : Engine) :
    (w = encode .init ∧ wordEffect w e = Engine.reset) ∨
      (w ≠ encode .init ∧ wordEffect w e = e ∧ decode w = .command .nop) ∨
      (w ≠ encode .init ∧ ∃ k, wordEffect w e = e.raise k (opField w) (argField w) ∧
        (k = .tooLarge → e.closed = false)) ∨
      (w ≠ encode .init ∧ e.closed = false ∧ ∃ i, decode w = .command i ∧ i.isAbsorb = true ∧
        e.nbytes.toNat + i.bytes.length ≤ Config.maxBytes ∧
        wordEffect w e = i.bytes.foldl Engine.absorbByte e) ∨
      (w ≠ encode .init ∧ e.closed = false ∧ decode w = .command .final ∧
        wordEffect w e = e.pad) := by
  by_cases hi : w = encode .init
  · exact .inl ⟨hi, by subst hi; rfl⟩
  · right
    cases hd : decode w with
    | illegal why => exact .inr (.inl ⟨hi, .illegal, by simp [wordEffect, hd], by simp⟩)
    | command i =>
      have he : wordEffect w e = effect i e := by simp [wordEffect, hd]
      obtain ⟨ho, ha⟩ := decode_command hd
      by_cases hab : i.isAbsorb = true
      · rw [he, effect_absorb hab, ho, ha]
        rcases e.absorbBytes_cases i.bytes i.op i.arg with ⟨-, h⟩ | ⟨hc, -, h⟩ | ⟨hc, hb, h⟩
        · exact .inr (.inl ⟨hi, .seq, h, by simp⟩)
        · exact .inr (.inl ⟨hi, .tooLarge, h, fun _ => hc⟩)
        · exact .inr (.inr (.inl ⟨hi, hc, i, rfl, hab, hb, h⟩))
      · cases i <;> simp [Instr.isAbsorb] at hab
        · exact .inl ⟨hi, he, rfl⟩
        · exact absurd (decode_init hd) hi
        · rw [he, ho, ha]
          by_cases hc : e.closed = true
          · refine .inr (.inl ⟨hi, .seq, ?_, by simp⟩)
            simp [effect, Engine.final, hc, Instr.op, Instr.arg]
          · exact .inr (.inr (.inr ⟨hi, by simpa using hc, rfl, by simp [effect, Engine.final, hc]⟩))

end Sys2Proof.Machine
end

