-- ==== Sys2Proof/Laws/PerInstr.lean ====
section
/-! SUPPORT. Statements made for every instruction, one lemma for each constructor. -/

namespace Sys2Proof.Laws.Encoding

open Sys2Proof.Machine (be32 opField argField cmdWord_bit be32_bit fields_append)

/-- The word of a command is well formed by R93's table, and its two fields are the command's opcode
and argument (R91). -/
def Statement (i : Instr) : Prop :=
  CmdWord.wellFormed (encode i) = true ∧ opField (encode i) = i.op ∧ argField (encode i) = i.arg

/-- A row that accepts a word makes it well formed (R93). -/
theorem wellFormed_of_row {w : CmdWord} (r : OpcodeRow) (hr : r ∈ opcodeMap)
    (h : w &&& r.mask = r.pattern) : CmdWord.wellFormed w = true :=
  List.any_eq_true.2 ⟨r, hr, by simp [OpcodeRow.accepts, h]⟩

theorem nop : Statement .nop := by unfold Statement; decide

theorem init : Statement .init := by unfold Statement; decide

theorem absorb1 (b0 : Byte) : Statement (.absorb1 b0) := by
  refine ⟨wellFormed_of_row ⟨"ABSORB1", 0x1000000000, 0xFF00FFFFFF⟩ (by decide) ?_,
    fields_append _ _⟩
  apply BitVec.eq_of_getLsbD_eq
  intro n hn
  simp only [encode, Instr.op, Instr.arg, BitVec.getLsbD_and, cmdWord_bit, be32_bit]
  interval_cases n <;> simp

theorem absorb2 (b0 b1 : Byte) : Statement (.absorb2 b0 b1) := by
  refine ⟨wellFormed_of_row ⟨"ABSORB2", 0x1100000000, 0xFF0000FFFF⟩ (by decide) ?_,
    fields_append _ _⟩
  apply BitVec.eq_of_getLsbD_eq
  intro n hn
  simp only [encode, Instr.op, Instr.arg, BitVec.getLsbD_and, cmdWord_bit, be32_bit]
  interval_cases n <;> simp

theorem absorb3 (b0 b1 b2 : Byte) : Statement (.absorb3 b0 b1 b2) := by
  refine ⟨wellFormed_of_row ⟨"ABSORB3", 0x1200000000, 0xFF000000FF⟩ (by decide) ?_,
    fields_append _ _⟩
  apply BitVec.eq_of_getLsbD_eq
  intro n hn
  simp only [encode, Instr.op, Instr.arg, BitVec.getLsbD_and, cmdWord_bit, be32_bit]
  interval_cases n <;> simp

theorem absorb4 (b0 b1 b2 b3 : Byte) : Statement (.absorb4 b0 b1 b2 b3) := by
  refine ⟨wellFormed_of_row ⟨"ABSORB4", 0x1300000000, 0xFF00000000⟩ (by decide) ?_,
    fields_append _ _⟩
  apply BitVec.eq_of_getLsbD_eq
  intro n hn
  simp only [encode, Instr.op, Instr.arg, BitVec.getLsbD_and, cmdWord_bit, be32_bit]
  interval_cases n <;> simp

theorem final : Statement .final := by unfold Statement; decide

end Sys2Proof.Laws.Encoding
end

