-- ==== Sys2Proof/Laws/Run.lean ====
section
/-! SUPPORT. Runs of the machine: reaching in steps, and the run in which the engine's side has the turn
until the engine is no longer BUSY, or until the port has taken the word the host holds. -/

namespace Sys2Proof.Machine

theorem Reaches.refl (s : State) : Reaches s s := ⟨0, rfl⟩

theorem Reaches.head {s u t : State} (h : step s = .next u) (hr : Reaches u t) : Reaches s t := by
  obtain ⟨k, hk⟩ := hr
  refine ⟨k + 1, ?_⟩
  have hc : core.step s = .next u := h
  simp only [Host.Core.run, hc]
  exact hk

theorem Reaches.trans {s u t : State} (h : Reaches s u) (hr : Reaches u t) : Reaches s t := by
  obtain ⟨k, hk⟩ := h
  induction k generalizing s with
  | zero =>
    cases Host.Outcome.next.inj hk
    exact hr
  | succ k ih =>
    obtain ⟨v, hv, -⟩ := step_engine_cases s
    have hc : core.step s = .next v := hv
    simp only [Host.Core.run, hc] at hk
    exact Reaches.head hv (ih hk)

/-- While the engine's side has the turn whatever the engine's state, the engine finishes its steps and
the host's side stays as it is (R207, R350). -/
theorem reaches_settled {host : HostSide}
    (h : ∀ e, step { engine := e, host := host } = engineTurn { engine := e, host := host })
    (e : Engine) :
    Reaches { engine := e, host := host } { engine := e.steps e.stepsLeft, host := host } := by
  have key : ∀ n e, e.stepsLeft = n →
      Reaches { engine := e, host := host } { engine := e.steps n, host := host } := by
    intro n
    induction n with
    | zero => exact fun e _ => Reaches.refl _
    | succ n ih =>
      intro e hn
      have hb : e.mode = .busy := (Engine.stepsLeft_pos_iff e).1 (by omega)
      have hl := Engine.stepsLeft_step e hb
      rw [Engine.steps_succ_first]
      exact Reaches.head ((h e).trans (engineTurn_busy hb)) (ih e.step (by omega))
  exact key _ e rfl

/-- A held word is taken once the engine has finished its steps (R90, R350). -/
theorem reaches_taken {host : HostSide} {w : CmdWord} (hw : host.cmdWord = some w)
    (h : ∀ e, step { engine := e, host := host } = engineTurn { engine := e, host := host })
    (e : Engine) :
    Reaches { engine := e, host := host }
      { engine := wordEffect w (e.steps e.stepsLeft), host := { host with cmdWord := none } } :=
  (reaches_settled h e).trans
    (Reaches.head ((h _).trans (engineTurn_take (Engine.steps_stepsLeft_ready e) hw))
      (Reaches.refl _))

/-- A `wait` at the head of the agenda ends, with the engine's steps done (R100, R207). -/
theorem reaches_waited {host : HostSide} {rest : List Action} (ha : host.agenda = .wait :: rest)
    (e : Engine) :
    ∃ v, Reaches { engine := e, host := host }
      { engine := e.steps e.stepsLeft, host := { host with agenda := rest, readData := some v } } := by
  have key : ∀ n e host, host.agenda = .wait :: rest → e.stepsLeft = n →
      ∃ v, Reaches { engine := e, host := host }
        { engine := e.steps n, host := { host with agenda := rest, readData := some v } } := by
    intro n
    induction n with
    | zero =>
      intro e host ha hn
      have hb : e.mode ≠ .busy := fun hb => by
        have := (Engine.stepsLeft_pos_iff e).2 hb
        omega
      exact ⟨_, Reaches.head (step_wait_ready ha hb) (Reaches.refl _)⟩
    | succ n ih =>
      intro e host ha hn
      have hb : e.mode = .busy := (Engine.stepsLeft_pos_iff e).1 (by omega)
      have hl := Engine.stepsLeft_step e hb
      obtain ⟨v, hv⟩ := ih e.step
        { host with agenda := .wait :: rest, readData := some (e.regRead 0x00) } rfl (by omega)
      refine ⟨v, ?_⟩
      rw [Engine.steps_succ_first]
      exact Reaches.head (step_wait_busy ha hb)
        (Reaches.head ((step_engine rfl).trans (engineTurn_busy hb)) hv)
  exact key _ e host ha rfl

end Sys2Proof.Machine
end

