-- ==== Sys2Proof/Laws/Source.lean ====
section
/-! SUPPORT. The source's functions: the expansion word by word (R201, R202), its rounds one at a time, and
the lengths of the padded buffer (R131, R133). -/

namespace Sys2Proof.Source

open Sys2Proof.Machine

theorem expandFirst_length (b : Block) (n : Nat) : (expandFirst b n).length = 16 + n := by
  induction n with
  | zero => simp [expandFirst]
  | succ n ih => simp [expandFirst, ih]; omega

/-- Later words do not change earlier ones. -/
theorem expandFirst_getD_succ (b : Block) (n : Nat) {t : Nat} (h : t < 16 + n) :
    (expandFirst b (n + 1)).getD t 0 = (expandFirst b n).getD t 0 := by
  have hl := expandFirst_length b n
  simp only [expandFirst, List.getD_eq_getElem?_getD]
  rw [List.getElem?_append_left (by omega)]

theorem expandFirst_getD_add (b : Block) (n m : Nat) {t : Nat} (h : t < 16 + n) :
    (expandFirst b (n + m)).getD t 0 = (expandFirst b n).getD t 0 := by
  induction m with
  | zero => rfl
  | succ m ih => rw [← Nat.add_assoc, expandFirst_getD_succ b (n + m) (by omega), ih]

theorem expand_eq (b : Block) {n t : Nat} (hn : n ≤ 64) (h : t < 16 + n) :
    (expand b).getD t 0 = (expandFirst b n).getD t 0 := by
  have := expandFirst_getD_add b n (64 - n) h
  rwa [show n + (64 - n) = 64 by omega] at this

/-- The first 16 words are the block's own (R202). -/
theorem expand_first (b : Block) {t : Nat} (h : t < 16) : (expand b).getD t 0 = blockWord b t := by
  rw [expand_eq b (Nat.zero_le 64) (by omega)]
  simp [expandFirst, List.getD_eq_getElem?_getD, h]

/-- The recurrence of the words from 16 on (R201). -/
theorem expand_next (b : Block) {t : Nat} (h : 16 ≤ t) (h' : t < 80) :
    (expand b).getD t 0 =
      rotl (xor4 ((expand b).getD (t - 3) 0) ((expand b).getD (t - 8) 0)
        ((expand b).getD (t - 14) 0) ((expand b).getD (t - 16) 0)) 1 := by
  obtain ⟨n, rfl⟩ : ∃ n, t = 16 + n := ⟨t - 16, by omega⟩
  have hl := expandFirst_length b n
  rw [expand_eq b (n := n + 1) (by omega) (by omega),
    expand_eq b (n := n) (t := 16 + n - 3) (by omega) (by omega),
    expand_eq b (n := n) (t := 16 + n - 8) (by omega) (by omega),
    expand_eq b (n := n) (t := 16 + n - 14) (by omega) (by omega),
    expand_eq b (n := n) (t := 16 + n - 16) (by omega) (by omega),
    show 16 + n - 3 = n + 13 by omega, show 16 + n - 8 = n + 8 by omega,
    show 16 + n - 14 = n + 2 by omega, show 16 + n - 16 = n by omega]
  simp only [expandFirst]
  rw [List.getD_eq_getElem?_getD, ← hl, List.getElem?_concat_length]
  rfl

theorem rounds_zero (h : Vector Word 5) (b : Block) : rounds h b 0 = h := rfl

/-- One round more. -/
theorem rounds_succ (h : Vector Word 5) (b : Block) (n : Nat) :
    rounds h b (n + 1) = round (rounds h b n) n ((expand b).getD n 0) := by
  simp [rounds, List.range_succ]

/-- The zero run by the position of the flag byte (R131). -/
theorem zeroRun_eq (n : Nat) :
    zeroRun n = if n % 64 ≤ 55 then 55 - n % 64 else 119 - n % 64 := by
  unfold zeroRun
  split <;> omega

theorem pad_length (m : List Byte) : (pad m).length = m.length + 9 + zeroRun m.length := by
  simp [pad, be64bytes]
  omega

end Sys2Proof.Source
end

