-- ==== Sys2Proof/Laws/Schedule.lean ====
section
/-! SUPPORT. The schedule window against the source's 80 words, one round at a time
(spec/42_schedule_and_round.md R202): `ws` is the list of words, and before round t the window holds the 16 words
up to position max t 16. -/

namespace Sys2Proof.Machine

/-- A block word of the buffer is the source's word of the block (R62). -/
theorem Engine.blockWord_eq_source (e : Engine) (i : Nat) :
    e.blockWord i = Source.blockWord e.block i := rfl

/-- W is read mod 16 (R60). -/
theorem Engine.wAt_mod (e : Engine) (n : Nat) : e.wAt (n % 16) = e.wAt n := by
  simp [Engine.wAt]

/-- The window before the first round (R140, R202). -/
theorem Engine.blockStart_window (e : Engine) (j : Nat) (hj : 1 ≤ j) (hj' : j ≤ 16) :
    e.blockStart.wAt (16 - j) = (Source.expand e.block).getD (16 - j) 0 := by
  rw [Engine.wAt_eq _ (by omega), Engine.blockStart_w _ (by omega), Source.expand_first _ (by omega)]
  rfl

variable {e : Engine} {b : Source.Block} {t : Nat}

/-- With the window of round t, SCHED(t) is word t (R202). -/
theorem Engine.schedWord_of_window (ht : t < 80)
    (hw : ∀ j, 1 ≤ j → j ≤ 16 →
      e.wAt (max t 16 - j) = (Source.expand b).getD (max t 16 - j) 0) :
    e.schedWord t = (Source.expand b).getD t 0 := by
  unfold Engine.schedWord
  split
  · have := hw (16 - t) (by omega) (by omega)
    rwa [show max t 16 - (16 - t) = t by omega] at this
  · have h3 := hw 3 (by omega) (by omega)
    have h8 := hw 8 (by omega) (by omega)
    have h14 := hw 14 (by omega) (by omega)
    have h16 := hw 16 (by omega) (by omega)
    rw [show max t 16 = t by omega] at h3 h8 h14 h16
    have h0 : e.wAt t = e.wAt (t - 16) := by
      rw [← Engine.wAt_mod e t, ← Engine.wAt_mod e (t - 16), show (t - 16) % 16 = t % 16 by omega]
    rw [Source.expand_next b (by omega) ht, h0, h3, h8, h14, h16]

/-- A round leaves the window of the next round (R202). -/
theorem Engine.round_window (ht : t < 80) (hT : e.t.toNat = t)
    (hw : ∀ j, 1 ≤ j → j ≤ 16 →
      e.wAt (max t 16 - j) = (Source.expand b).getD (max t 16 - j) 0) (j : Nat) (hj : 1 ≤ j)
    (hj' : j ≤ 16) :
    e.round.wAt (max (t + 1) 16 - j) = (Source.expand b).getD (max (t + 1) 16 - j) 0 := by
  have hs := Engine.schedWord_of_window ht hw
  have hr : ∀ n, e.round.wAt n =
      if 16 ≤ t ∧ t % 16 = n % 16 then e.schedWord t else e.wAt n := by
    intro n
    unfold Engine.wAt
    simp only [Engine.round, hT, Engine.schedWindow]
    by_cases h : t < 16
    · simp [h]
    · simp [h, show 16 ≤ t by omega, Vector.getElem_set]
  rw [hr]
  by_cases h : t < 16
  · rw [if_neg (by omega)]
    have := hw j hj hj'
    rwa [show max t 16 = max (t + 1) 16 by omega] at this
  · rw [show max (t + 1) 16 = t + 1 by omega]
    by_cases h1 : j = 1
    · subst h1
      rw [if_pos (by simp; omega), hs]
      rfl
    · rw [if_neg (by omega)]
      have := hw (j - 1) (by omega) (by omega)
      rwa [show max t 16 - (j - 1) = t + 1 - j by omega] at this

end Sys2Proof.Machine
end

