-- ==== Sys2Proof/Tests/Slice0.lean ====
section
/-! SUPPORT. Tests of the model: expected values come from the spec's own examples and vectors (named in
each comment). Then one witness for each statement with hypotheses: values that meet all of them. -/

namespace Sys2Proof.Tests

open Sys2Proof Sys2Proof.Machine

/-! ### Helpers -/

/-- An engine with an open message of `n` bytes, `fill` of them in BUF (which holds zeros). -/
def openAt (n : Nat) : Engine :=
  { Engine.reset with fill := BitVec.ofNat 6 (n % 64), nbytes := BitVec.ofNat 64 n }

/-- An engine that is compressing, about to make round `t`. -/
def busyAt (t : Nat) (next : Next) : Engine :=
  { Engine.reset with mode := .busy, t := BitVec.ofNat 7 t, next := next }

/-- An engine in DONE. -/
def doneEngine : Engine := { Engine.reset with mode := .done }

/-- An engine in ERROR, as L2.10 leaves it. -/
def errorEngine : Engine :=
  { openAt (2 ^ 61 - 1) with mode := .error, errTooLarge := true, errOp := 0x10, errArg := 0x63000000 }

/-- A machine whose host holds no word. -/
def withHost (e : Engine) (agenda : List Action) : State :=
  { engine := e, host := { HostSide.idle with agenda := agenda } }

/-- A machine whose host holds word `w`. -/
def holding (e : Engine) (w : CmdWord) (agenda : List Action) : State :=
  { engine := e, host := { HostSide.idle with cmdWord := some w, agenda := agenda } }

/-- The engine after one step, if the step answers a next state. -/
def engineAfter : Host.Outcome State Fault Refusal → Option Engine
  | .next s => some s.engine
  | .fault _ => none
  | .refused _ => none

/-- The engine after the word is put where the step takes it, and one step. -/
def afterWord (e : Engine) (w : Nat) : Option Engine :=
  engineAfter (step ((withHost e []).withFetchWord 40 w))

/-- What L2.10 looks at: STATUS, ERR_OP, ERR_ARG, FILL, NBYTES. -/
def errorView (e : Engine) : Word × Word × Word × Word × BitVec 64 :=
  (e.regRead 0x00, e.regRead 0x05, e.regRead 0x06, e.regRead 0x03, e.nbytes)

/-! ### WellFormed: a well-formed word of each row, and an ill-formed one for each check -/

theorem test_wellFormed_accepts :
    CmdWord.wellFormed 0x0000000000 = true ∧ CmdWord.wellFormed 0x0100000000 = true ∧
      CmdWord.wellFormed 0x1080000000 = true ∧ CmdWord.wellFormed 0x1161620000 = true ∧
      CmdWord.wellFormed 0x1261626300 = true ∧ CmdWord.wellFormed 0x13DEADBEEF = true ∧
      CmdWord.wellFormed 0x2000000000 = true := by decide

/-- The check of NOP's argument (L2.3). -/
theorem test_wellFormed_refuses_nop_arg : CmdWord.wellFormed 0x0000000001 = false := by decide

/-- The check of INIT's argument (L2.3). -/
theorem test_wellFormed_refuses_init_arg : CmdWord.wellFormed 0x0180000000 = false := by decide

/-- The check of ABSORB1's reserved lanes (L2.3). -/
theorem test_wellFormed_refuses_absorb1_lanes :
    CmdWord.wellFormed 0x1000000001 = false ∧ CmdWord.wellFormed 0x1000010000 = false := by decide

/-- The check of ABSORB2's reserved lanes (L2.3). -/
theorem test_wellFormed_refuses_absorb2_lanes : CmdWord.wellFormed 0x11616200FF = false := by decide

/-- The check of ABSORB3's reserved lane (L2.3). -/
theorem test_wellFormed_refuses_absorb3_lane : CmdWord.wellFormed 0x1261626301 = false := by decide

/-- The check of FINAL's argument (L2.3). -/
theorem test_wellFormed_refuses_final_arg : CmdWord.wellFormed 0x2080000000 = false := by decide

/-- The check of the opcode (L2.3). -/
theorem test_wellFormed_refuses_opcode :
    CmdWord.wellFormed 0x0200000000 = false ∧ CmdWord.wellFormed 0x1400000000 = false ∧
      CmdWord.wellFormed 0x1F00000000 = false ∧ CmdWord.wellFormed 0x2100000000 = false ∧
      CmdWord.wellFormed 0xFFFFFFFFFF = false := by decide

/-- Ill-formed host lines: no operand, five operands, a byte of 256, a count that is not k (R99). -/
theorem test_hostLine_refuses :
    (HostLine.absorb []).actions = none ∧
      (HostLine.absorb (List.replicate 5 (.number 0))).actions = none ∧
      (HostLine.absorb [.number 256]).actions = none ∧
      (HostLine.absorbK 3 [.number 1, .number 2]).actions = none := by decide

/-! ### Decode: every constructor from a word written out from R93's bit patterns -/

theorem test_decode_nop : decode 0x0000000000#40 = .command .nop := by decide

theorem test_decode_init :
    decode 0b0000000100000000000000000000000000000000#40 = .command .init := by decide

/-- `00010000 aaaaaaaa 0...`, a = 0x80 (L2.3). -/
theorem test_decode_absorb1 :
    decode 0b0001000010000000000000000000000000000000#40 = .command (.absorb1 0x80) := by decide

/-- `00010001 aaaaaaaa bbbbbbbb 0...`, 0x61 and 0x62 (L2.3). -/
theorem test_decode_absorb2 :
    decode 0b0001000101100001011000100000000000000000#40 = .command (.absorb2 0x61 0x62) := by decide

/-- `00010010 aaaaaaaa bbbbbbbb cccccccc 0...` (L2.3). -/
theorem test_decode_absorb3 :
    decode 0b0001001001100001011000100110001100000000#40 =
      .command (.absorb3 0x61 0x62 0x63) := by decide

/-- `00010011 aaaaaaaa bbbbbbbb cccccccc dddddddd` (L2.3). -/
theorem test_decode_absorb4 :
    decode 0b0001001111011110101011011011111011101111#40 =
      .command (.absorb4 0xDE 0xAD 0xBE 0xEF) := by decide

theorem test_decode_final :
    decode 0b0010000000000000000000000000000000000000#40 = .command .final := by decide

/-- The illegal words of L2.3. -/
theorem test_decode_illegal :
    decode 0x0000000001 = .illegal .nonzeroArgument ∧
      decode 0x0180000000 = .illegal .nonzeroArgument ∧
      decode 0x1000010000 = .illegal .nonzeroReservedLane ∧
      decode 0x11616200FF = .illegal .nonzeroReservedLane ∧
      decode 0x1261626301 = .illegal .nonzeroReservedLane ∧
      decode 0x2080000000 = .illegal .nonzeroArgument ∧
      decode 0x1F00000000 = .illegal .undefinedOpcode ∧
      decode 0xFFFFFFFFFF = .illegal .undefinedOpcode := by decide

/-- The table's numbering: op in bits 39:32, the bits above the row's zero (R91). -/
theorem test_decodeTableWord :
    decodeTableWord 40 0x1261626300 = some (.absorb3 0x61 0x62 0x63) ∧
      decodeTableWord 40 0x1400000000 = none ∧ decodeTableWord 40 0 = some .nop := by decide

/-! ### One step of each command -/

/-- NOP in DONE leaves STATUS 0x00000006 (L2.9). -/
theorem test_nop_in_done :
    (afterWord doneEngine 0x0000000000).map (·.regRead 0x00) = some 0x00000006 := by decide

/-- INIT in the ERROR state of L2.10 recovers. -/
theorem test_init_in_error : afterWord errorEngine 0x0100000000 = some Engine.reset := by decide

/-- After INIT, HEX0 is 0x36373435 and HEX9 is 0x65316630 (L2.8). -/
theorem test_init_hex :
    (afterWord doneEngine 0x0100000000).map (fun e => (e.regRead 0x40, e.regRead 0x49)) =
      some (0x36373435, 0x65316630) := by decide

/-- ABSORB1 after INIT: BUF[0] = 0x61, FILL = 1, NBYTES = 1, READY (R121's example). -/
theorem test_absorb1_first :
    (afterWord Engine.reset 0x1061000000).map (fun e =>
      (e.bufByte 0, e.fill, e.nbytes, e.mode)) = some (0x61, 1, 1, .ready) := by decide

/-- ABSORB1 at NBYTES = MAX_BYTES: TOOLARGE, nothing absorbed (L2.10). -/
theorem test_absorb1_too_large :
    (afterWord (openAt (2 ^ 61 - 1)) 0x1063000000).map errorView =
      some (0x00000043, 0x10, 0x63000000, 63, BitVec.ofNat 64 (2 ^ 61 - 1)) := by decide

/-- ABSORB2 after INIT: BUF[0..1] = 61 62, FILL = 2, NBYTES = 2 (R122's example). -/
theorem test_absorb2_first :
    (afterWord Engine.reset 0x1161620000).map (fun e =>
      (e.bufByte 0, e.bufByte 1, e.fill, e.nbytes)) = some (0x61, 0x62, 2, 2) := by decide

/-- ABSORB2 that reaches MAX_BYTES exactly is absorbed (L2.10). -/
theorem test_absorb2_at_bound :
    (afterWord (openAt (2 ^ 61 - 3)) 0x1161620000).map errorView =
      some (0x00000000, 0x00, 0x00000000, 63, BitVec.ofNat 64 (2 ^ 61 - 1)) := by decide

/-- ABSORB3 after INIT: BUF[0..2] = 61 62 63, FILL = 3, NBYTES = 3, READY (R123's example). -/
theorem test_absorb3_first :
    (afterWord Engine.reset 0x1261626300).map (fun e =>
      (e.bufByte 0, e.bufByte 1, e.bufByte 2, e.fill, e.nbytes, e.mode)) =
      some (0x61, 0x62, 0x63, 3, 3, .ready) := by decide

/-- ABSORB3 at FILL = 61 completes the block on its third byte: FILL = 0, BUSY (R123). -/
theorem test_absorb3_completes :
    (afterWord (openAt 61) 0x1261626300).map (fun e => (e.fill, e.nbytes, e.mode, e.wAt 15)) =
      some (0, 64, .busy, 0x00616263) := by decide

/-- ABSORB4 over the block boundary (R124's example, with zeros in BUF[60] and BUF[61]). -/
theorem test_absorb4_straddles :
    (afterWord (openAt 62) 0x1341424344).map (fun e =>
      (e.bufByte 62, e.bufByte 63, e.wAt 15, e.bufByte 0, e.bufByte 1)) =
      some (0x41, 0x42, 0x00004142, 0x43, 0x44) := by decide

/-- The counters after it: FILL = 2, NBYTES = 66, T = 0, BUSY, NEXT = RESUME (R124's example). -/
theorem test_absorb4_straddle_counters :
    (afterWord (openAt 62) 0x1341424344).map (fun e =>
      (e.fill, e.nbytes, e.t, e.mode, e.next)) = some (2, 66, 0, .busy, .resume) := by decide

/-- FINAL of the empty message: W0 = 0x80000000, W15 = 0, SEQ = 0x200 (L2.4). -/
theorem test_final_empty :
    (afterWord Engine.reset 0x2000000000).map (fun e =>
      (e.wAt 0, e.wAt 15, e.regRead 0x04, e.regRead 0x00)) =
      some (0x80000000, 0, 0x200, 1) := by decide

/-- FINAL at NBYTES = MAX_BYTES: the second block ends in FF..F8, SEQ = 0x100 (L2.4). -/
theorem test_final_at_bound :
    (afterWord (openAt (2 ^ 61 - 1)) 0x2000000000).map (fun e =>
      (e.regRead 0x3E, e.regRead 0x3F, e.regRead 0x04, e.fill)) =
      some (0xFFFFFFFF, 0xFFFFFFF8, 0x100, 0) := by decide

/-! ### Errors, the read port, the engine's steps -/

/-- An illegal word at FILL = 1 (L2.10, first row). -/
theorem test_illegal_word :
    (afterWord (openAt 1) 0x1000000001).map errorView =
      some (0x00000010, 0x10, 0x00000001, 1, 1) := by decide

/-- In DONE an illegal ABSORB1 raises ILLEGAL only (L2.10, second row). -/
theorem test_illegal_before_seq :
    (afterWord doneEngine 0x1000000001).map (·.regRead 0x00) = some 0x00000016 := by decide

/-- The second error keeps the first capture (L2.10, fourth row). -/
theorem test_capture_first :
    (afterWord { doneEngine with errSeq := true, errOp := 0x20 } 0x1400000000).map errorView =
      some (0x00000036, 0x20, 0x00000000, 0, 0) := by decide

/-- FINAL in ERROR adds SEQ (L2.10, seventh row). -/
theorem test_final_in_error :
    (afterWord errorEngine 0x2000000000).map (·.regRead 0x00) = some 0x00000063 := by decide

/-- RESET during a block, at T = 40: the reset state, and no ACCUM (L2.11). -/
theorem test_reset_mid_block :
    engineAfter (step (withHost (busyAt 40 .resume) [.reset])) = some Engine.reset := by decide

/-- Indexes without a register read zero (L2.8). -/
theorem test_read_unmapped :
    errorEngine.regRead 0x07 = 0 ∧ errorEngine.regRead 0x0D = 0 ∧ errorEngine.regRead 0x15 = 0 ∧
      errorEngine.regRead 0x4A = 0 ∧ errorEngine.regRead 0xFF = 0 := by decide

/-- HEXCHAR of 0, 9, 10 and 15 (L2.8). -/
theorem test_hexChar :
    hexChar 0 = 0x30 ∧ hexChar 9 = 0x39 ∧ hexChar 10 = 0x61 ∧ hexChar 15 = 0x66 := by decide

/-- The ALU vectors of L2.1. -/
theorem test_alu :
    rotl 0x80000001 1 = 0x00000003 ∧ rotl 0x12345678 30 = 0x048D159E ∧
      rotl 0x67452301 5 = 0xE8A4602C ∧ ch 0xFFFF0000 0x12345678 0x9ABCDEF0 = 0x1234DEF0 ∧
      maj 0xF0F0F0F0 0xFF00FF00 0x0F0F0F0F = 0xFF00FF00 ∧
      parity 0xF0F0F0F0 0xFF00FF00 0x0F0F0F0F = 0x00FF00FF := by decide

/-- SUM5 wraps (L2.1; its first column holds A, whose rotation is itself here). -/
theorem test_sum5 :
    sum5 0xFFFFFFFF 0xFFFFFFFF 0xFFFFFFFF 0xFFFFFFFF 0xFFFFFFFF = 0xFFFFFFFB := by decide

/-- Round 0 of "abc" (L2.6, first row). -/
theorem test_round_zero :
    ({ busyAt 0 .finish with x := Config.iv, w := (Vector.replicate 16 0).set 0 0x61626380 }).step.x =
      #v[0x0116FC33, 0x67452301, 0x7BF36AE2, 0x98BADCFE, 0x10325476] := by decide

/-- The last ACCUM of "abc" (L2.7): H, MODE and STATUS. -/
theorem test_accum_finish :
    ({ busyAt 80 .finish with
        x := #v[0x42541B35, 0x5738D5E1, 0x21834873, 0x681E6DF6, 0xD8FDF6AD] }).step.h =
      #v[0xA9993E36, 0x4706816A, 0xBA3E2571, 0x7850C26C, 0x9CD0D89D] ∧
      (busyAt 80 .finish).step.regRead 0x00 = 0x00000006 := by decide

/-! ### Witnesses: values that meet the hypotheses of each statement -/

theorem witness_EncodeReadsBackEveryLegalWord :
    decode 0x1261626300 = .command (.absorb3 0x61 0x62 0x63) := by decide

theorem witness_DecodeAgreesWithOpcodeMap :
    ⟨"ABSORB1", 0x1000000000, 0xFF00FFFFFF⟩ ∈ opcodeMap ∧
      (0x10FF000000 : CmdWord) &&& 0xFF00FFFFFF = 0x1000000000 ∧
      decode 0x1400000000 = .illegal .undefinedOpcode := by decide

theorem witness_IllegalWordsOnlyRaiseIllegal :
    decode 0x1400000000 = .illegal .undefinedOpcode ∧ State.reset.engine.mode ≠ .busy := by decide

theorem witness_AbsorbLanesAreMessageBytes :
    decode 0x1161620000 = .command (.absorb2 0x61 0x62) ∧
      (Instr.absorb2 0x61 0x62).isAbsorb = true := by decide

theorem witness_StepRunsTheDecodedCommand :
    decode 0x2000000000 = .command .final ∧ (openAt 3).mode ≠ .busy ∧
      (holding (openAt 3) 0x2000000000 []).host.cmdWord = some 0x2000000000 ∧
      (holding (openAt 3) 0x2000000000 []).host.agenda = [] ∧
      (holding (openAt 3) 0x2000000000 [.engine]).host.agenda = .engine :: [] ∧
      (holding (openAt 3) 0x2000000000 [.sync]).host.agenda = .sync :: [] ∧
      (holding (openAt 3) 0x2000000000 [.issue 0]).host.agenda = .issue 0 :: [] ∧
      (withHost (openAt 3) [.issue 0x2000000000]).host.cmdWord = none ∧
      (withHost (openAt 3) [.issue 0x2000000000]).host.agenda = .issue 0x2000000000 :: [] := by
  decide

theorem witness_CommandsWaitWhileBusy :
    (busyAt 40 .resume).mode = .busy ∧
      (withHost (busyAt 40 .resume) [.issue 0]).host.cmdWord = none ∧
      (withHost (busyAt 40 .resume) [.issue 0]).host.agenda = .issue 0 :: [] ∧
      (holding (busyAt 40 .resume) 0 []).host.cmdWord = some 0 ∧
      (holding (busyAt 40 .resume) 0 []).host.agenda = [] ∧
      (holding (busyAt 40 .resume) 0 [.engine]).host.agenda = .engine :: [] ∧
      (holding (busyAt 40 .resume) 0 [.issue 1]).host.agenda = .issue 1 :: [] ∧
      (holding (busyAt 40 .resume) 0 [.sync]).host.agenda = .sync :: [] := by decide

theorem witness_ReadChangesNothing :
    (holding (busyAt 40 .resume) 0 [.read 0x20]).host.agenda = .read 0x20 :: [] := by decide

theorem witness_ResetSetsEveryElement :
    (holding (busyAt 40 .second) 0 [.reset]).host.agenda = .reset :: [] := by decide

theorem witness_EngineStepsExactlyWhileBusy :
    (withHost (busyAt 0 .resume) [.engine]).host.agenda = .engine :: [] ∧
      (busyAt 0 .resume).mode = .busy ∧ (busyAt 0 .resume).t.toNat < 80 ∧
      (busyAt 79 .resume).t.toNat < 80 ∧ (busyAt 80 .second).t = 80 ∧
      (openAt 0).mode ≠ .busy ∧ (withHost (openAt 0) [.engine]).host.cmdWord = none := by decide

theorem witness_OnlyCommandsResetAndEngineStepsChangeTheEngine :
    (∃ t, step (withHost errorEngine [.reset]) = .next t ∧ t.engine ≠ errorEngine) ∧
      (∃ t, step (withHost (busyAt 0 .resume) []) = .next t ∧ t.engine ≠ busyAt 0 .resume) ∧
      (∃ t, step (withHost (openAt 3) [.issue 0x1061000000]) = .next t ∧ t.engine ≠ openAt 3) :=
  ⟨⟨_, rfl, by decide⟩, ⟨_, rfl, by decide⟩, ⟨_, rfl, by decide⟩⟩

/-- NOP and INIT: a READY, a DONE and an ERROR state. -/
theorem witness_NopLeavesTheState :
    (openAt 3).mode ≠ .busy ∧ doneEngine.mode ≠ .busy ∧ errorEngine.mode ≠ .busy := by decide

theorem witness_InitSetsEveryElement :
    (openAt 3).mode ≠ .busy ∧ doneEngine.mode ≠ .busy ∧ errorEngine.mode ≠ .busy := by decide

theorem witness_DigestStaysUntilRestart :
    doneEngine.mode = .done ∧
      (∃ t, step (withHost doneEngine [.issue 0x2000000000]) = .next t) ∧
      (withHost doneEngine [.issue 0x2000000000]).takes = some 0x2000000000 ∧
      decode 0x2000000000 = .command .final :=
  ⟨by decide, ⟨_, rfl⟩, by decide, by decide⟩

theorem witness_AbsorbByteInsertsAtFill : (openAt 62).fill ≠ 63 ∧ (openAt 63).fill = 63 := by decide

/-- At the boundaries: FILL = 59 with four bytes, and NBYTES = MAX_BYTES - 4 with four bytes. -/
theorem witness_AbsorbInsideTheBlock :
    (Instr.absorb4 1 2 3 4).isAbsorb = true ∧ (openAt 59).mode = .ready ∧
      (openAt 59).nbytes.toNat + (Instr.absorb4 1 2 3 4).bytes.length ≤ Config.maxBytes ∧
      (openAt 59).fill.toNat + (Instr.absorb4 1 2 3 4).bytes.length ≤ 63 ∧
      (openAt (2 ^ 61 - 5)).nbytes.toNat + (Instr.absorb4 1 2 3 4).bytes.length ≤ Config.maxBytes ∧
      (openAt (2 ^ 61 - 5)).fill.toNat + (Instr.absorb4 1 2 3 4).bytes.length ≤ 63 := by decide

/-- FILL = 63 with one byte and with four, FILL = 60 with four. -/
theorem witness_AbsorbCompletesTheBlock :
    (Instr.absorb1 1).isAbsorb = true ∧ (openAt 63).mode = .ready ∧
      (openAt 63).nbytes.toNat + (Instr.absorb4 1 2 3 4).bytes.length ≤ Config.maxBytes ∧
      64 ≤ (openAt 63).fill.toNat + (Instr.absorb1 1).bytes.length ∧
      64 ≤ (openAt 63).fill.toNat + (Instr.absorb4 1 2 3 4).bytes.length ∧
      64 ≤ (openAt 60).fill.toNat + (Instr.absorb4 1 2 3 4).bytes.length := by decide

theorem witness_AbsorbFrame :
    (Instr.absorb4 1 2 3 4).isAbsorb = true ∧
      (∃ t, exec (.absorb4 1 2 3 4) (withHost (openAt 62) []) = .next t) ∧
      (∃ t, exec (.absorb4 1 2 3 4) (withHost doneEngine []) = .next t) ∧
      doneEngine.mode ≠ .ready ∧
      (∃ t, exec (.absorb4 1 2 3 4) (withHost (openAt (2 ^ 61 - 1)) []) = .next t) ∧
      Config.maxBytes < (openAt (2 ^ 61 - 1)).nbytes.toNat + (Instr.absorb4 1 2 3 4).bytes.length :=
  ⟨by decide, ⟨_, rfl⟩, ⟨_, rfl⟩, by decide, ⟨_, rfl⟩, by decide⟩

theorem witness_AbsorbPastTheBoundIsRejectedWhole :
    (openAt (2 ^ 61 - 1)).mode = .ready ∧
      2 ^ 61 - 1 < (openAt (2 ^ 61 - 1)).nbytes.toNat + (Instr.absorb1 1).bytes.length ∧
      2 ^ 61 - 1 < (openAt (2 ^ 61 - 4)).nbytes.toNat + (Instr.absorb4 1 2 3 4).bytes.length := by
  decide

theorem witness_ClosedMessageRaisesSeq :
    doneEngine.mode = .done ∧ errorEngine.mode = .error ∧ (Instr.absorb1 1).isAbsorb = true ∧
      (∃ t, exec .nop (withHost { doneEngine with errSeq := true } []) = .next t ∧
        t.engine.errSeq = true) :=
  ⟨by decide, by decide, by decide, ⟨_, rfl, by decide⟩⟩

theorem witness_AlignedAbsorbFourIsABlockWord :
    (openAt 60).mode = .ready ∧ (openAt 60).nbytes.toNat + 4 ≤ Config.maxBytes ∧
      (openAt 60).fill.toNat % 4 = 0 ∧ (openAt 60).fill = 60 ∧ (openAt 0).fill.toNat % 4 = 0 := by
  decide

theorem witness_FinalWithOneBlock :
    (openAt 0).mode = .ready ∧ (openAt 0).fill.toNat ≤ 55 ∧ (openAt 55).fill.toNat ≤ 55 := by decide

theorem witness_FinalWithTwoBlocks :
    (openAt 56).mode = .ready ∧ 56 ≤ (openAt 56).fill.toNat ∧ 56 ≤ (openAt 63).fill.toNat := by
  decide

theorem inv_openAt_55 : (openAt 55).Inv := by
  constructor <;> decide

theorem inv_openAt_56 : (openAt 56).Inv := by
  constructor <;> decide

theorem inv_openAt_max : (openAt (2 ^ 61 - 1)).Inv := by
  constructor <;> decide

/-- FILL = 55 and FILL = 56, and the longest message. -/
theorem witness_FinalBlocksAreTheSourcePadding :
    ((openAt 55).Inv ∧ (∃ t, exec .final (withHost (openAt 55) []) = .next t) ∧
        (openAt 55).fill.toNat ≤ 55) ∧
      ((openAt 56).Inv ∧ (∃ t, exec .final (withHost (openAt 56) []) = .next t) ∧
        56 ≤ (openAt 56).fill.toNat) ∧
      ((openAt (2 ^ 61 - 1)).Inv ∧ 56 ≤ (openAt (2 ^ 61 - 1)).fill.toNat) :=
  ⟨⟨inv_openAt_55, ⟨_, rfl⟩, by decide⟩, ⟨inv_openAt_56, ⟨_, rfl⟩, by decide⟩, inv_openAt_max,
    by decide⟩

theorem witness_LengthFieldIsExact : (openAt (2 ^ 61 - 1)).nbytes.toNat ≤ 2 ^ 61 - 1 := by decide

theorem witness_RoundRule :
    (busyAt 0 .resume).mode = .busy ∧ (busyAt 0 .resume).t.toNat < 80 ∧
      (busyAt 15 .resume).t.toNat < 80 ∧ (busyAt 16 .second).t.toNat < 80 ∧
      (busyAt 79 .finish).t.toNat < 80 := by decide

/-- The first, the last and the meeting values of the ranges of t, j and n. -/
theorem witness_WindowHoldsTheExpansion :
    ((0 < 80) ∧ (79 < 80)) ∧
      ((16 ≤ 16 ∧ 16 ≤ 80 ∧ 1 ≤ 1 ∧ 1 ≤ 16) ∧ (16 ≤ 80 ∧ 80 ≤ 80 ∧ 1 ≤ 16 ∧ 16 ≤ 16)) ∧
      ((0 < 16) ∧ (15 < 16)) := by decide

theorem witness_RoundsFollowTheSource : (0 ≤ 80) ∧ (80 ≤ 80) := by decide

theorem witness_AccumRule :
    (busyAt 80 .resume).mode = .busy ∧ (busyAt 80 .resume).t = 80 ∧
      (busyAt 80 .resume).next = .resume ∧ (busyAt 80 .second).next = .second ∧
      (busyAt 80 .finish).next = .finish := by decide

/-- FINAL at FILL = 55 and at 56, ABSORB1 at 63; and a BUSY engine at T = 80 with NEXT = SECOND. -/
theorem witness_BlocksTakeEightyOneSteps :
    (∃ t, exec .final (withHost (openAt 55) []) = .next t ∧ t.engine.mode = .busy) ∧
      (∃ t, exec .final (withHost (openAt 56) []) = .next t ∧ t.engine.mode = .busy) ∧
      (∃ t, exec (.absorb1 1) (withHost (openAt 63) []) = .next t ∧ t.engine.mode = .busy) ∧
      (busyAt 80 .second).t.toNat ≤ 80 ∧ (busyAt 80 .second).mode = .busy :=
  ⟨⟨_, rfl, by decide⟩, ⟨_, rfl, by decide⟩, ⟨_, rfl, by decide⟩, by decide, by decide⟩

theorem inv_busyAt_80 : (busyAt 80 .second).Inv := by
  constructor <;> decide

theorem witness_ReadsAreAdmittedAtEveryRound :
    (busyAt 80 .second).Inv ∧ (busyAt 80 .second).mode = .busy ∧
      82 ≤ (busyAt 80 .second).stepsLeft ∧
      (withHost (busyAt 80 .second) (List.replicate 82 .engine ++ [.read 0])).host.agenda =
        List.replicate 82 .engine ++ .read 0 :: [] :=
  ⟨inv_busyAt_80, by decide, by decide, rfl⟩

/-- A BUSY engine, and a body with a NOP, an illegal word, a read, a wait and two ABSORBs. -/
theorem witness_EngineComputesTheDigest :
    let body : List Action := [.issue 0, .issue 0x1000000001, .read 0x00, .issue 0x1161620000, .wait,
      .engine, .issue 0x1063000000, .sync]
    let s := withHost (busyAt 7 .resume) (.issue (encode .init) :: (body ++ [.issue (encode .final)]))
    s.host.cmdWord = none ∧
      s.host.agenda = .issue (encode .init) :: (body ++ [.issue (encode .final)]) ∧
      body.all Action.withinMessage = true ∧
      body.flatMap Action.delivers = [0x61, 0x62, 0x63] ∧ body.any Action.isIllegal = true ∧
      ([0x61, 0x62, 0x63] : List Byte).length ≤ Config.maxBytes := by decide

theorem witness_HashThenDigestReadsTheText :
    let s := withHost errorEngine (hashActions [0x61, 0x62, 0x63] ++ digestActions)
    s.host.cmdWord = none ∧ s.host.agenda = hashActions [0x61, 0x62, 0x63] ++ digestActions ∧
      ([0x61, 0x62, 0x63] : List Byte).length ≤ Config.maxBytes := by decide

/-- One word for each clause: an illegal word, FINAL in DONE, ABSORB1 at the bound, ABSORB1 in READY. -/
theorem witness_ErrorPriority :
    (doneEngine.mode ≠ .busy ∧ (∃ t, takeWord 0x1400000000 (withHost doneEngine []) = .next t) ∧
        decode 0x1400000000 = .illegal .undefinedOpcode) ∧
      (doneEngine.mode = .done ∧ (∃ t, takeWord 0x2000000000 (withHost doneEngine []) = .next t) ∧
        decode 0x2000000000 = .command .final) ∧
      ((openAt (2 ^ 61 - 1)).mode = .ready ∧
        (∃ t, takeWord 0x1061000000 (withHost (openAt (2 ^ 61 - 1)) []) = .next t) ∧
        decode 0x1061000000 = .command (.absorb1 0x61) ∧
        Config.maxBytes < (openAt (2 ^ 61 - 1)).nbytes.toNat + (Instr.absorb1 0x61).bytes.length) ∧
      ((openAt 3).mode = .ready ∧
        (∃ t, takeWord 0x1061000000 (withHost (openAt 3) []) = .next t) ∧
        (openAt 3).nbytes.toNat + (Instr.absorb1 0x61).bytes.length ≤ Config.maxBytes) :=
  ⟨⟨by decide, ⟨_, rfl⟩, by decide⟩, ⟨by decide, ⟨_, rfl⟩, by decide⟩,
    ⟨by decide, ⟨_, rfl⟩, by decide, by decide⟩, ⟨by decide, ⟨_, rfl⟩, by decide⟩⟩

theorem witness_ErrorFlagsAreSticky :
    (∃ t, step (withHost errorEngine [.issue 0x2000000000]) = .next t) ∧
      errorEngine.errTooLarge = true ∧
      ¬ (withHost errorEngine [.issue 0x2000000000]).restarts :=
  ⟨⟨_, rfl⟩, by decide, by unfold State.restarts; decide⟩

/-- A step that makes the first error, and one that makes a later one. -/
theorem witness_CaptureHoldsTheFirstError :
    (∃ t, step (withHost doneEngine [.issue 0x2000000000]) = .next t ∧
        doneEngine.anyError = false ∧ t.engine.anyError = true) ∧
      ¬ (withHost doneEngine [.issue 0x2000000000]).restarts ∧
      (∃ t, step (withHost errorEngine [.issue 0x1400000000]) = .next t) ∧
      errorEngine.anyError = true ∧ ¬ (withHost errorEngine [.issue 0x1400000000]).restarts ∧
      (∃ t, step (withHost (openAt 3) []) = .next t ∧ t.engine.anyError = false) :=
  ⟨⟨_, rfl, by decide, by decide⟩, by unfold State.restarts; decide, ⟨_, rfl⟩, by decide,
    by unfold State.restarts; decide, ⟨_, rfl, by decide⟩⟩

theorem witness_OnlyRestartLeavesError :
    (∃ t, step (withHost errorEngine [.issue 0x0100000000]) = .next t ∧
        t.engine.mode ≠ .error) ∧ errorEngine.mode = .error ∧
      (withHost errorEngine [.issue 0x0100000000]).restarts :=
  ⟨⟨_, rfl, by decide⟩, by decide, by unfold State.restarts; decide⟩

theorem witness_EveryStepKeepsTheInvariants :
    (busyAt 80 .second).Inv ∧ ∃ t, step (withHost (busyAt 80 .second) []) = .next t :=
  ⟨inv_busyAt_80, ⟨_, rfl⟩⟩

theorem witness_HashStateChangesOnlyInAccum :
    (∃ t, step (withHost { busyAt 80 .finish with x := Config.iv } []) = .next t ∧
        t.engine.h ≠ (busyAt 80 .finish).h) ∧
      (∃ t, step (withHost { doneEngine with h := Vector.replicate 5 0 } [.reset]) = .next t ∧
        t.engine.h ≠ Vector.replicate 5 0) :=
  ⟨⟨_, rfl, by decide⟩, ⟨_, rfl, by decide⟩⟩

theorem witness_NbytesChangesOnlyInHostActions :
    (∃ t, step (withHost (openAt 3) [.issue 0x1061000000]) = .next t ∧
        t.engine.nbytes ≠ (openAt 3).nbytes) ∧
      (∃ t, step (withHost (openAt 3) [.reset]) = .next t ∧
        t.engine.nbytes ≠ (openAt 3).nbytes) :=
  ⟨⟨_, rfl, by decide⟩, ⟨_, rfl, by decide⟩⟩

/-- The first and the last of each group of indexes without a register. -/
theorem witness_ReadPortMap :
    ((0x07 : BitVec 8) = 0x07) ∧ ((0x0D : BitVec 8) ≤ 0x0D ∧ (0x0F : BitVec 8) ≤ 0x0F) ∧
      ((0x15 : BitVec 8) ≤ 0x1F) ∧ ((0x4A : BitVec 8) ≤ 0xFF) := by decide

theorem witness_InstancesAreIndependent : (0 : Fin 2) ≠ 1 := by decide

end Sys2Proof.Tests
end

section
/-! The state of the engine (spec/10_state.md): what a step can do to it, and the proofs of the
statements about it. -/

namespace Sys2Proof.Machine

/-! ### What a step does to the engine -/

/-- A BUSY engine takes no word (R90). -/
theorem takes_of_busy {s : State} (h : s.engine.mode = .busy) : s.takes = none := by
  simp [State.takes, h]

/-- A restart leaves the reset engine (R340, R341). -/
theorem step_engine_of_restarts {s t : State} (h : step s = .next t) (hr : s.restarts) :
    t.engine = Engine.reset := by
  rcases step_cases h with ⟨-, he⟩ | ⟨hn, -, hb, -⟩ | ⟨hn, -, -, w, hw, he⟩ | ⟨hn, -, hw, -⟩
  · exact he
  · simp [State.restarts, hn, takes_of_busy hb] at hr
  · obtain rfl : w = encode .init := by simpa [State.restarts, hn, hw] using hr
    exact he
  · simp [State.restarts, hn, hw] at hr

/-- The ways a step that is no restart acts on the engine: an engine step, a word other than INIT's
taken, or nothing. -/
theorem step_cases_of_not_restarts {s t : State} (h : step s = .next t) (hr : ¬ s.restarts) :
    (s.engineSteps = true ∧ s.engine.mode = .busy ∧ t.engine = s.engine.step) ∨
      (s.engine.mode ≠ .busy ∧
        ∃ w, w ≠ encode .init ∧ s.takes = some w ∧ t.engine = wordEffect w s.engine) ∨
      t.engine = s.engine := by
  rcases step_cases h with ⟨hn, -⟩ | ⟨-, hs, hb, he⟩ | ⟨-, -, hb, w, hw, he⟩ | ⟨-, -, -, he⟩
  · exact absurd (.inl hn) hr
  · exact .inl ⟨hs, hb, he⟩
  · exact .inr (.inl ⟨hb, w, fun hi => hr (.inr (hi ▸ hw)), hw, he⟩)
  · exact .inr (.inr he)

/-- Settles O14: the cases of a step, the one that leaves the engine excluded. -/
theorem onlyCommandsResetAndEngineStepsChangeTheEngine :
    Obligations.OnlyCommandsResetAndEngineStepsChangeTheEngine := by
  intro s t h hne
  rcases step_cases h with hr | ⟨-, hs⟩ | ⟨-, -, hb, hw⟩ | ⟨-, -, -, he⟩
  · exact .inl hr
  · exact .inr (.inl hs)
  · exact .inr (.inr ⟨hb, hw⟩)
  · exact absurd he hne

/-! ### The error record -/

/-- Two engines with the same error flags and capture registers (R33, R34). -/
def Engine.SameErrors (e e' : Engine) : Prop :=
  e'.errIllegal = e.errIllegal ∧ e'.errSeq = e.errSeq ∧ e'.errTooLarge = e.errTooLarge ∧
    e'.errOp = e.errOp ∧ e'.errArg = e.errArg

theorem Engine.SameErrors.anyError_eq {e e' : Engine} (h : e.SameErrors e') :
    e'.anyError = e.anyError := by
  obtain ⟨hi, hs, ht, -⟩ := h
  simp only [Engine.anyError, hi, hs, ht]

theorem Engine.SameErrors.capture_eq {e e' : Engine} (h : e.SameErrors e') :
    e'.errOp = e.errOp ∧ e'.errArg = e.errArg := by
  obtain ⟨-, -, -, hcap⟩ := h
  exact hcap

theorem Engine.SameErrors.refl (e : Engine) : e.SameErrors e := ⟨rfl, rfl, rfl, rfl, rfl⟩

theorem Engine.sameErrors_step (e : Engine) : e.SameErrors e.step := by
  obtain ⟨-, -, -, he⟩ := e.step_frame
  exact he

theorem Engine.sameErrors_pad (e : Engine) : e.SameErrors e.pad := by
  obtain ⟨-, -, -, -, -, -, -, he⟩ := e.pad_fields
  exact he

theorem Engine.sameErrors_absorb (e : Engine) (bs : List Byte) :
    e.SameErrors (bs.foldl Engine.absorbByte e) := by
  obtain ⟨-, -, -, he⟩ := Engine.foldl_absorbByte bs e
  exact he

/-- A taken word other than INIT's raises one error with its own fields, or leaves the error record
as it is (R301, R302). -/
theorem wordEffect_errors {w : CmdWord} (hw : w ≠ encode .init) (e : Engine) :
    e.SameErrors (wordEffect w e) ∨ ∃ k, wordEffect w e = e.raise k (opField w) (argField w) := by
  rcases wordEffect_cases w e with ⟨hi, -⟩ | ⟨-, he, -⟩ | ⟨-, k, he, -⟩ |
    ⟨-, -, i, -, -, -, he⟩ | ⟨-, -, -, he⟩
  · exact absurd hi hw
  · exact .inl (he.symm ▸ .refl e)
  · exact .inr ⟨k, he⟩
  · exact .inl (he ▸ e.sameErrors_absorb i.bytes)
  · exact .inl (he ▸ e.sameErrors_pad)

/-- A step that is no restart leaves the error record as it is, or is one in which the port takes a
word that raises an error. -/
theorem step_errors {s t : State} (h : step s = .next t) (hr : ¬ s.restarts) :
    s.engine.SameErrors t.engine ∨
      ∃ w k, s.takes = some w ∧ t.engine = s.engine.raise k (opField w) (argField w) := by
  rcases step_cases_of_not_restarts h hr with ⟨-, -, he⟩ | ⟨-, w, hi, hw, he⟩ | he
  · exact .inl (he ▸ s.engine.sameErrors_step)
  · rcases wordEffect_errors hi s.engine with hs | ⟨k, hk⟩
    · exact .inl (he ▸ hs)
    · exact .inr ⟨w, k, hw, he.trans hk⟩
  · exact .inl (he ▸ .refl s.engine)

/-- Settles O42: Error sets flags and clears none, a restart leaves the reset engine, and any other
step keeps the error record or raises an error. -/
theorem errorFlagsAreSticky : Obligations.ErrorFlagsAreSticky := by
  refine ⟨fun e op arg => ?_, fun s t h => ⟨fun hr => ?_, fun hr => ?_⟩⟩
  · simp [Engine.raise_flags]
  · rw [step_engine_of_restarts h hr]
    exact ⟨rfl, rfl, rfl⟩
  · rcases step_errors h hr with ⟨hi, hs, hl, -⟩ | ⟨w, k, -, he⟩
    · rw [hi, hs, hl]
      exact ⟨id, id, id⟩
    · rw [he]
      simp +contextual [Engine.raise_flags]

/-- Settles O43: a step that keeps the error record keeps the capture, and one that raises an error
writes it only when no flag was set. -/
theorem captureHoldsTheFirstError : Obligations.CaptureHoldsTheFirstError := by
  intro s t h hr
  rcases step_errors h hr with hs | ⟨w, k, hw, he⟩
  · refine ⟨fun _ => hs.capture_eq, fun h0 h1 => ?_, fun _ => hs.capture_eq⟩
    simp [hs.anyError_eq, h0] at h1
  · obtain ⟨hop, harg⟩ := s.engine.raise_capture k (opField w) (argField w)
    have hany := s.engine.raise_anyError k (opField w) (argField w)
    rw [← he] at hop harg hany
    refine ⟨fun h1 => ?_, fun h0 _ => ⟨w, hw, ?_⟩, fun h0 => ?_⟩
    · rw [hop, harg, if_pos h1, if_pos h1]
      exact ⟨rfl, rfl⟩
    · rw [hop, harg, h0]
      exact ⟨rfl, rfl⟩
    · simp [hany] at h0

/-! ### The hash state -/

/-- A taken word other than INIT's leaves H as it is (R21). -/
theorem wordEffect_h {w : CmdWord} (hw : w ≠ encode .init) (e : Engine) :
    (wordEffect w e).h = e.h := by
  rcases wordEffect_cases w e with ⟨hi, -⟩ | ⟨-, he, -⟩ | ⟨-, k, he, -⟩ |
    ⟨-, -, i, -, -, -, he⟩ | ⟨-, -, -, he⟩
  · exact absurd hi hw
  · rw [he]
  · rw [he, Engine.raise_h]
  · rw [he]
    exact (Engine.foldl_absorbByte i.bytes e).1
  · rw [he]
    exact e.pad_fields.1

/-- Settles O47: a restart sets H to IV, and of the other steps only ACCUM changes it. -/
theorem hashStateChangesOnlyInAccum : Obligations.HashStateChangesOnlyInAccum := by
  intro s t h hne
  by_cases hr : s.restarts
  · exact .inr ⟨hr, by rw [step_engine_of_restarts h hr]; rfl⟩
  · rcases step_cases_of_not_restarts h hr with ⟨hs, hb, he⟩ | ⟨-, w, hi, -, he⟩ | he
    · by_cases ht : s.engine.t.toNat < 80
      · exact absurd (by rw [he, s.engine.step_round ht, Engine.round_h]) hne
      · exact .inl ⟨hs, hb, ht, by rw [he, s.engine.step_accum ht, Engine.accum_h]⟩
    · exact absurd (by rw [he, wordEffect_h hi]) hne
    · exact absurd (by rw [he]) hne

/-! ### The invariants -/

/-- Settles O46: every field of the reset engine is a literal. -/
theorem resetStateMeetsTheInvariants : Obligations.ResetStateMeetsTheInvariants where
  roundBound := by decide
  lengthBound := by decide
  idleSequencer := fun _ => ⟨rfl, rfl⟩
  openFill := fun _ => rfl
  closedFill := fun _ => rfl
  errorFlag := by decide
  captureEmpty := fun _ => ⟨rfl, rfl⟩

/-- The engine can insert a byte: the message is open, or a block of an ABSORBk under way has just
started (R126). -/
def Engine.Accepting (e : Engine) : Prop :=
  e.mode = .ready ∨ (e.mode = .busy ∧ e.next = .resume)

/-- A byte leaves the sequencer alone, or starts a block with NEXT = RESUME (R126). -/
theorem Engine.absorbByte_sequencer (e : Engine) (b : Byte) :
    ((e.absorbByte b).mode = .busy ∧ (e.absorbByte b).next = .resume ∧ (e.absorbByte b).t = 0) ∨
      ((e.absorbByte b).mode = e.mode ∧ (e.absorbByte b).next = e.next ∧
        (e.absorbByte b).t = e.t) := by
  rcases e.absorbByte_cases b with ⟨-, h⟩ | ⟨-, h⟩ <;> rw [h]
  · exact .inl ⟨rfl, rfl, rfl⟩
  · exact .inr ⟨rfl, rfl, rfl⟩

/-- After a byte the next one can follow. -/
theorem Engine.Accepting.absorbByte {e : Engine} (ha : e.Accepting) (b : Byte) :
    (e.absorbByte b).Accepting := by
  rcases e.absorbByte_sequencer b with ⟨hm, hn, -⟩ | ⟨hm, hn, -⟩
  · exact .inr ⟨hm, hn⟩
  · rwa [Engine.Accepting, hm, hn]

theorem Engine.Accepting.not_error {e : Engine} (ha : e.Accepting) : e.mode ≠ .error := by
  rcases ha with hm | ⟨hm, -⟩ <;> simp [hm]

/-- An engine that can insert a byte is not in the cases of R40 item 4. -/
theorem Engine.Accepting.not_closed {e : Engine} (ha : e.Accepting) :
    ¬ (e.mode = .done ∨ (e.mode = .busy ∧ e.next ≠ .resume)) := by
  rcases ha with hm | ⟨hm, hn⟩
  · simp [hm]
  · simp [hm, hn]

/-- NBYTES counts a byte within the bound without wrapping (R26). -/
theorem Engine.absorbByte_nbytes_toNat {e : Engine} {b : Byte}
    (hl : e.nbytes.toNat + 1 ≤ Config.maxBytes) :
    (e.absorbByte b).nbytes.toNat = e.nbytes.toNat + 1 := by
  have h1 : (1 : BitVec 64).toNat = 1 := rfl
  simp only [Config.maxBytes] at hl
  rw [Engine.absorbByte_nbytes, BitVec.toNat_add_of_lt (by omega), h1]

/-- An engine that is neither BUSY nor closed has an open message. -/
theorem Engine.ready_of_not_closed {e : Engine} (hb : e.mode ≠ .busy) (hc : e.closed = false) :
    e.mode = .ready := by
  cases hm : e.mode <;> simp_all [Engine.closed]

namespace Engine.Inv

variable {e : Engine} (hi : e.Inv)
include hi

/-- R40 item 6 speaks of the error record only. -/
theorem captureEmpty_of_sameErrors {e' : Engine} (hs : e.SameErrors e') (h : e'.anyError = false) :
    e'.errOp = 0 ∧ e'.errArg = 0 := by
  obtain ⟨hop, harg⟩ := hs.capture_eq
  rw [hop, harg]
  exact hi.captureEmpty (hs.anyError_eq ▸ h)

/-- ROUND keeps the invariants. -/
theorem round (ht : e.t.toNat < 80) (hb : e.mode = .busy) : e.round.Inv where
  roundBound := by rw [e.round_t_toNat ht]; omega
  lengthBound := hi.lengthBound
  idleSequencer := fun h => absurd hb h
  openFill := hi.openFill
  closedFill := hi.closedFill
  errorFlag := hi.errorFlag
  captureEmpty := hi.captureEmpty

/-- ACCUM keeps the invariants: each value of NEXT leads to the MODE its FILL fits (R206). -/
theorem accum (hb : e.mode = .busy) : e.accum.Inv := by
  cases hn : e.next with
  | resume =>
    have hf := hi.openFill (.inr (.inr ⟨hb, hn⟩))
    rw [e.accum_resume hn]
    exact { hi with
      roundBound := by simp
      idleSequencer := fun _ => ⟨rfl, hn⟩
      openFill := fun _ => hf
      closedFill := by simp
      errorFlag := by simp }
  | second =>
    have hf := hi.closedFill (.inr ⟨hb, by simp [hn]⟩)
    rw [e.accum_second hn]
    exact { hi with
      roundBound := by simp
      idleSequencer := by simp
      openFill := by simp
      closedFill := fun _ => hf
      errorFlag := by simp }
  | finish =>
    have hf := hi.closedFill (.inr ⟨hb, by simp [hn]⟩)
    rw [e.accum_finish hn]
    exact { hi with
      roundBound := by simp
      idleSequencer := fun _ => ⟨rfl, rfl⟩
      openFill := by simp
      closedFill := fun _ => hf
      errorFlag := by simp }

/-- An engine step keeps the invariants. -/
theorem step (hb : e.mode = .busy) : e.step.Inv := by
  by_cases ht : e.t.toNat < 80
  · exact e.step_round ht ▸ hi.round ht hb
  · exact e.step_accum ht ▸ hi.accum hb

/-- Recording an error keeps the invariants: TOOLARGE comes only in an open message, whose FILL fits
ERROR too (R305). -/
theorem raise (hb : e.mode ≠ .busy) {k : ErrorKind} (hk : k = .tooLarge → e.closed = false)
    (op : Byte) (arg : Word) : (e.raise k op arg).Inv where
  roundBound := by simpa using hi.roundBound
  lengthBound := by simpa using hi.lengthBound
  idleSequencer := fun _ => by simpa using hi.idleSequencer hb
  openFill := by
    rw [e.raise_mode k op arg, Engine.raise_fill, Engine.raise_nbytes, Engine.raise_next]
    split
    · exact fun _ => hi.openFill (.inl (e.ready_of_not_closed hb (hk ‹_›)))
    · exact hi.openFill
  closedFill := by
    rw [e.raise_mode k op arg, Engine.raise_fill, Engine.raise_next]
    split
    · simp
    · exact hi.closedFill
  errorFlag := by
    obtain ⟨-, -, hl⟩ := e.raise_flags k op arg
    rw [e.raise_mode k op arg, hl]
    split
    · simp [*]
    · exact fun h => by simp [hi.errorFlag h]
  captureEmpty := by simp [e.raise_anyError k op arg]

/-- FINAL's padding in an open message keeps the invariants: it starts a last block with FILL 0. -/
theorem pad : e.pad.Inv := by
  obtain ⟨-, -, hf, hn, ht, hm, hnext, -⟩ := e.pad_fields
  have hne : e.pad.next ≠ .resume := by rw [hnext]; split <;> simp
  exact {
    roundBound := by simp [ht]
    lengthBound := hn ▸ hi.lengthBound
    idleSequencer := fun h => absurd hm h
    openFill := by simp [hm, hne]
    closedFill := fun _ => hf
    errorFlag := by simp [hm]
    captureEmpty := hi.captureEmpty_of_sameErrors e.sameErrors_pad }

/-- R40 item 3 at an engine that can insert a byte. -/
theorem fill_of_accepting (ha : e.Accepting) : e.fill.toNat = e.nbytes.toNat % 64 :=
  hi.openFill (ha.imp_right .inr)

/-- One byte within the bound keeps the invariants (R126). -/
theorem absorbByte (ha : e.Accepting) (hl : e.nbytes.toNat + 1 ≤ Config.maxBytes) (b : Byte) :
    (e.absorbByte b).Inv where
  roundBound := by
    rcases e.absorbByte_sequencer b with ⟨-, -, ht⟩ | ⟨-, -, ht⟩ <;> rw [ht]
    · decide
    · exact hi.roundBound
  lengthBound := by rwa [e.absorbByte_nbytes_toNat hl]
  idleSequencer := by
    rcases e.absorbByte_sequencer b with ⟨hm, -, -⟩ | ⟨hm, hn, ht⟩
    · exact fun h => absurd hm h
    · rw [hm, hn, ht]
      exact hi.idleSequencer
  openFill := by
    rw [e.absorbByte_fill_toNat, e.absorbByte_nbytes_toNat hl, hi.fill_of_accepting ha]
    omega
  closedFill := fun h => absurd h (ha.absorbByte b).not_closed
  errorFlag := fun h => absurd h (ha.absorbByte b).not_error
  captureEmpty := hi.captureEmpty_of_sameErrors (e.sameErrors_absorb [b])

/-- Bytes within the bound keep the invariants (R120). -/
theorem absorb (ha : e.Accepting) (bs : List Byte)
    (hl : e.nbytes.toNat + bs.length ≤ Config.maxBytes) : (bs.foldl Engine.absorbByte e).Inv := by
  induction bs generalizing e with
  | nil => exact hi
  | cons b bs ih =>
    simp only [List.length_cons] at hl
    have hl' : e.nbytes.toNat + 1 ≤ Config.maxBytes := by omega
    refine ih (hi.absorbByte ha hl' b) (ha.absorbByte b) ?_
    rw [e.absorbByte_nbytes_toNat hl']
    omega

/-- A taken word keeps the invariants. -/
theorem wordEffect (hb : e.mode ≠ .busy) (w : CmdWord) : (wordEffect w e).Inv := by
  rcases wordEffect_cases w e with ⟨-, he⟩ | ⟨-, he, -⟩ | ⟨-, k, he, hk⟩ |
    ⟨-, hc, i, -, -, hl, he⟩ | ⟨-, -, -, he⟩ <;> rw [he]
  · exact resetStateMeetsTheInvariants
  · exact hi
  · exact hi.raise hb hk _ _
  · exact hi.absorb (.inl (e.ready_of_not_closed hb hc)) _ hl
  · exact hi.pad

end Engine.Inv

/-- Settles O45, by the cases of a step: the reset engine has the invariants, and engine steps and
taken words keep them. -/
theorem everyStepKeepsTheInvariants : Obligations.EveryStepKeepsTheInvariants := by
  intro s t hi h
  rcases step_cases h with ⟨-, he⟩ | ⟨-, -, hb, he⟩ | ⟨-, -, hb, w, -, he⟩ | ⟨-, -, -, he⟩ <;>
    rw [he]
  · exact resetStateMeetsTheInvariants
  · exact hi.step hb
  · exact hi.wordEffect hb w
  · exact hi

/-! ### The length field -/

/-- Byte i of a 64-bit value, as a number (R63). -/
theorem be64Byte_toNat (v : BitVec 64) (i : Nat) :
    (be64Byte v i).toNat = v.toNat / 2 ^ (56 - 8 * i) % 256 := by
  simp [be64Byte, Nat.shiftRight_eq_div_pow]

/-- The big-endian bytes of a 64-bit value read back as its number (R63). -/
theorem be64bytes_foldl (v : BitVec 64) :
    (be64bytes v).foldl (fun n b => 256 * n + b.toNat) 0 = v.toNat := by
  have hv := v.isLt
  simp only [be64bytes, List.foldl_cons, List.foldl_nil, be64Byte_toNat]
  omega

/-- The bit length is exact for a length R26 allows. -/
theorem Engine.bitLength_toNat {e : Engine} (h : e.nbytes.toNat ≤ 2 ^ 61 - 1) :
    e.bitLength.toNat = 8 * e.nbytes.toNat := by
  have h8 : (8 : BitVec 64).toNat = 8 := rfl
  rw [Engine.bitLength, BitVec.toNat_mul, h8, Nat.mod_eq_of_lt (by omega), Nat.mul_comm]

/-- Settles O28: the length is exact, and its eight bytes read back as it. -/
theorem lengthFieldIsExact : Obligations.LengthFieldIsExact := by
  intro e h
  have hl := e.bitLength_toNat h
  refine ⟨BitVec.eq_of_toNat_eq ?_, hl, (be64bytes_foldl _).trans hl⟩
  rw [BitVec.extractLsb'_toNat, Nat.shiftRight_eq_div_pow, Nat.div_eq_of_lt (by omega)]
  rfl

/-! ### The read port -/

section ReadPort

variable (e : Engine)

/-- STATUS reads 0 above its fields (R35). -/
theorem Engine.status_high {n : Nat} (hn : 7 ≤ n) : e.status.getLsbD n = false := by
  rw [Engine.status, BitVec.getLsbD_setWidth, BitVec.getLsbD_of_ge _ _ hn, Bool.and_false]

/-- STATUS bit by bit (R35). -/
theorem Engine.status_bit {n : Nat} (hn : n < 7) :
    e.status.getLsbD n =
      if n < 2 then e.mode.code.getLsbD n
      else if n = 2 then e.dvalid
      else if n = 4 then e.errIllegal
      else if n = 5 then e.errSeq
      else if n = 6 then e.errTooLarge
      else false := by
  rw [Engine.status, BitVec.getLsbD_setWidth, BitVec.getLsbD_append, BitVec.getLsbD_append,
    BitVec.getLsbD_append, BitVec.getLsbD_append, BitVec.getLsbD_append]
  interval_cases n <;> simp

/-- SEQ reads 0 above NEXT (R36). -/
theorem Engine.seq_high {n : Nat} (hn : 10 ≤ n) : e.seq.getLsbD n = false := by
  rw [Engine.seq, BitVec.getLsbD_setWidth, BitVec.getLsbD_of_ge _ _ hn, Bool.and_false]

/-- SEQ bit by bit (R36). -/
theorem Engine.seq_bit {n : Nat} (hn : n < 10) :
    e.seq.getLsbD n =
      if n < 7 then e.t.getLsbD n
      else if n < 8 then false
      else e.next.code.getLsbD (n - 8) := by
  rw [Engine.seq, BitVec.getLsbD_setWidth, BitVec.getLsbD_append, BitVec.getLsbD_append]
  interval_cases n <;> simp

theorem Engine.regRead_status : e.regRead 0x00 = e.status := rfl

theorem Engine.regRead_seq : e.regRead 0x04 = e.seq := rfl

/-- The MODE field of STATUS (R35). -/
theorem Engine.status_mode : e.status.extractLsb' 0 2 = e.mode.code := by
  apply BitVec.eq_of_getLsbD_eq
  intro i hi
  rw [BitVec.getLsbD_extractLsb', decide_eq_true hi, Bool.true_and, Nat.zero_add,
    e.status_bit (by omega), if_pos hi]

/-- The T field of SEQ (R36). -/
theorem Engine.seq_t : e.seq.extractLsb' 0 7 = e.t := by
  apply BitVec.eq_of_getLsbD_eq
  intro i hi
  rw [BitVec.getLsbD_extractLsb', decide_eq_true hi, Bool.true_and, Nat.zero_add,
    e.seq_bit (by omega), if_pos hi]

/-- The NEXT field of SEQ (R36). -/
theorem Engine.seq_next : e.seq.extractLsb' 8 2 = e.next.code := by
  apply BitVec.eq_of_getLsbD_eq
  intro i hi
  rw [BitVec.getLsbD_extractLsb', decide_eq_true hi, Bool.true_and, e.seq_bit (by omega),
    if_neg (by omega), if_neg (by omega), Nat.add_sub_cancel_left]

theorem Engine.regRead_fill : e.regRead 0x03 = e.fill.setWidth 32 := rfl

theorem Engine.regRead_errOp : e.regRead 0x05 = e.errOp.setWidth 32 := rfl

/-- 0x08 + i reads H[i] (R70). -/
theorem Engine.regRead_h (i : Fin 5) : e.regRead (0x08 + BitVec.ofNat 8 i.val) = e.h[i] := by
  fin_cases i <;> rfl

/-- 0x10 + i reads X[i] (R70). -/
theorem Engine.regRead_x (i : Fin 5) : e.regRead (0x10 + BitVec.ofNat 8 i.val) = e.x[i] := by
  fin_cases i <;> rfl

/-- 0x20 + i reads W[i] (R70). -/
theorem Engine.regRead_w (i : Fin 16) : e.regRead (0x20 + BitVec.ofNat 8 i.val) = e.w[i] := by
  fin_cases i <;> rfl

/-- 0x30 + i reads block word i (R70). -/
theorem Engine.regRead_blockWord (i : Fin 16) :
    e.regRead (0x30 + BitVec.ofNat 8 i.val) = e.blockWord i.val := by
  fin_cases i <;> rfl

/-- Block word i of the buffer is packed from bytes 4i to 4i + 3 (R62). -/
theorem Engine.blockWord_eq (i : Fin 16) :
    e.blockWord i.val = be32 (e.buf[4 * i.val]) (e.buf[4 * i.val + 1]) (e.buf[4 * i.val + 2])
      (e.buf[4 * i.val + 3]) := by
  simp only [Engine.blockWord, e.bufByte_eq (show 4 * i.val < 64 by omega),
    e.bufByte_eq (show 4 * i.val + 1 < 64 by omega),
    e.bufByte_eq (show 4 * i.val + 2 < 64 by omega),
    e.bufByte_eq (show 4 * i.val + 3 < 64 by omega)]

/-- An index without a register reads 0 (R70, R98). -/
theorem Engine.regRead_unmapped {idx : BitVec 8}
    (h : idx.toNat = 0x07 ∨ (0x0D ≤ idx.toNat ∧ idx.toNat ≤ 0x0F) ∨
      (0x15 ≤ idx.toNat ∧ idx.toNat ≤ 0x1F) ∨ 0x4A ≤ idx.toNat) : e.regRead idx = 0 := by
  simp only [Engine.regRead]
  rw [if_neg (by omega), if_neg (by omega), if_neg (by omega), if_neg (by omega),
    if_neg (by omega), if_neg (by omega), if_neg (by omega), dif_neg (by omega), dif_neg (by omega),
    if_neg (by omega), if_neg (by omega), if_neg (by omega)]

/-- The two halves of NBYTES give it back (R71). -/
theorem Engine.regRead_nbytes : e.regRead 0x02 ++ e.regRead 0x01 = e.nbytes :=
  (BitVec.extractLsb'_append_extractLsb'_eq_extractLsb' rfl).trans (BitVec.extractLsb'_eq_self ..)

end ReadPort

/-- Settles O49, field by field. -/
theorem statusAndSequencerFields : Obligations.StatusAndSequencerFields := by
  intro e
  simp only [e.regRead_status, e.regRead_seq]
  refine ⟨e.status_mode.trans ?_, (e.status_bit (by decide)).trans ?_, e.status_bit (by decide),
    e.status_bit (by decide), e.status_bit (by decide), e.status_bit (by decide),
    fun n => e.status_high, e.seq_t, e.seq_bit (by decide), e.seq_next.trans ?_,
    fun n => e.seq_high, by decide, by decide⟩
  · cases e.mode <;> rfl
  · cases hm : e.mode <;> simp [Engine.dvalid, hm]
  · cases e.next <;> rfl

/-- Settles O50, group by group of the map. -/
theorem readPortMap : Obligations.ReadPortMap := by
  intro e
  refine ⟨e.regRead_nbytes, ?_, ?_, rfl, e.regRead_h, e.regRead_x, e.regRead_w, fun i => ?_,
    fun idx h => e.regRead_unmapped ?_⟩
  · rw [e.regRead_fill, BitVec.toNat_setWidth_of_le (by decide)]
  · rw [e.regRead_errOp, BitVec.toNat_setWidth_of_le (by decide)]
  · exact (e.regRead_blockWord i).trans (e.blockWord_eq i)
  · simpa [← BitVec.toNat_inj, BitVec.le_def] using h

end Sys2Proof.Machine
end

section
/-! The memories of the engine (spec/20_memory.md): what ABSORBk stores in the block buffer and what it
leaves alone, and the separation of engine instances. -/

namespace Sys2Proof.Machine

/-! ### The frame of ABSORBk -/

/-- The ways an ABSORBk ends, in any mode: nothing happens while BUSY, an error is recorded, or the
bytes go into an open message within the bound (R120, R350). The ports are not touched. -/
theorem exec_absorb_cases {i : Instr} {s t : State} (hi : i.isAbsorb = true)
    (h : exec i s = .next t) :
    t.host = s.host ∧
      (t.engine = s.engine ∨ (∃ k, t.engine = s.engine.raise k i.op i.arg) ∨
        (s.engine.mode = .ready ∧ s.engine.nbytes.toNat + i.bytes.length ≤ Config.maxBytes ∧
          t.engine = i.bytes.foldl Engine.absorbByte s.engine)) := by
  rw [exec_eq_effect] at h
  rcases whenReady_cases h with ⟨-, rfl⟩ | ⟨hb, rfl⟩
  · exact ⟨rfl, .inl rfl⟩
  · refine ⟨rfl, .inr ?_⟩
    simp only [effect_absorb hi]
    rcases s.engine.absorbBytes_cases i.bytes i.op i.arg with ⟨-, he⟩ | ⟨-, -, he⟩ | ⟨hc, hl, he⟩
    · exact .inl ⟨_, he⟩
    · exact .inl ⟨_, he⟩
    · exact .inr ⟨s.engine.ready_of_not_closed hb hc, hl, he⟩

/-- Settles O21: an ABSORBk that absorbs nothing keeps every field named, and one that absorbs is in
READY within the bound and stores at its own positions only. -/
theorem absorbFrame : Obligations.AbsorbFrame := by
  intro i s t hi h
  obtain ⟨hhost, he | ⟨k, he⟩ | ⟨hm, hl, he⟩⟩ := exec_absorb_cases hi h
  · rw [he]
    exact ⟨hhost, rfl, fun _ _ _ => rfl, fun _ => ⟨rfl, rfl, rfl, rfl, rfl, rfl, rfl⟩⟩
  · rw [he]
    exact ⟨hhost, by simp, fun j _ _ => Engine.bufByte_congr (by simp) j, fun _ => by simp⟩
  · rw [he]
    refine ⟨hhost, (Engine.foldl_absorbByte i.bytes s.engine).1,
      fun j hj => Engine.foldl_absorbByte_miss i.bytes s.engine hj, fun hrej => ?_⟩
    rcases hrej with hm' | hl'
    · exact absurd hm hm'
    · omega

/-! ### ABSORB4 at an aligned FILL -/

/-- Four bytes absorbed at a FILL that is a multiple of 4 are a block word of the buffer (R62, R64). -/
theorem Engine.foldl_absorbByte_blockWord (e : Engine) (b0 b1 b2 b3 : Byte)
    (ha : e.fill.toNat % 4 = 0) :
    ([b0, b1, b2, b3].foldl Engine.absorbByte e).blockWord (e.fill.toNat / 4) =
      be32 b0 b1 b2 b3 := by
  have hf := e.fill.isLt
  have hit : ∀ n (hn : n < 4), ([b0, b1, b2, b3].foldl Engine.absorbByte e).bufByte
      (4 * (e.fill.toNat / 4) + n) = [b0, b1, b2, b3][n] := by
    intro n hn
    rw [← Engine.foldl_absorbByte_hit [b0, b1, b2, b3] e (by simp) hn, Engine.absorbPos,
      Nat.mod_eq_of_lt (by omega), show 4 * (e.fill.toNat / 4) = e.fill.toNat by omega]
  unfold Engine.blockWord
  rw [hit 1 (by decide), hit 2 (by decide), hit 3 (by decide), ← Nat.add_zero (4 * _),
    hit 0 (by decide)]
  rfl

/-- A list of bytes that completes the block leaves W as the block words of the buffer (R140). -/
theorem Engine.foldl_absorbByte_w (bs : List Byte) (e : Engine)
    (h : e.fill.toNat + bs.length = 64) {n : Nat} (hn : n < 16) :
    (bs.foldl Engine.absorbByte e).w[n] = (bs.foldl Engine.absorbByte e).blockWord n := by
  rw [Engine.foldl_absorbByte_completes bs e h, Engine.blockStart_w _ hn]
  rfl

/-- In an open message within the bound ABSORBk absorbs its bytes and leaves the ports alone (R120). -/
theorem exec_absorb_open {i : Instr} {s : State} (hi : i.isAbsorb = true)
    (hm : s.engine.mode = .ready)
    (hl : s.engine.nbytes.toNat + i.bytes.length ≤ Config.maxBytes) :
    exec i s = .next { s with engine := i.bytes.foldl Engine.absorbByte s.engine } := by
  rw [exec_eq_effect, whenReady_ready (by simp [hm]), effect_absorb_open hi hm hl]

/-- Settles O24: the argument is packed from its own lanes, and so is the block word they are stored
as. -/
theorem alignedAbsorbFourIsABlockWord : Obligations.AlignedAbsorbFourIsABlockWord := by
  intro v s hm hl ha
  have hw := s.engine.foldl_absorbByte_blockWord (lane v 0) (lane v 1) (lane v 2) (lane v 3) ha
  rw [be32_lane] at hw
  obtain ⟨-, harg⟩ := encode_fields (.absorb4 (lane v 0) (lane v 1) (lane v 2) (lane v 3))
  refine ⟨_, exec_absorb_open rfl hm hl, harg.trans (be32_lane v), hw, fun h60 => ?_⟩
  have hf : s.engine.fill.toNat = 60 := by rw [h60]; rfl
  rw [hf] at hw
  exact (Engine.foldl_absorbByte_w _ s.engine (by rw [hf]; rfl) (by decide)).trans hw

/-! ### Instances -/

/-- An action of instance i stores what that instance's own step answers, at i (R80, R320). -/
theorem Platform.act_of_step {n : Nat} {p : Platform n} {i : Fin n} {t : State}
    (h : step p[i] = .next t) : p.act i = .next (p.set i.val t i.isLt) := by
  rw [Platform.act, h]

/-- Settles O59: the two actions store at different positions what the instances' own steps answer. -/
theorem instancesAreIndependent : Obligations.InstancesAreIndependent := by
  intro n p i j
  obtain ⟨t, ht, -⟩ := step_engine_cases p[i]
  obtain ⟨u, hu, -⟩ := step_engine_cases p[j]
  have other : ∀ (k l : Fin n) (s : State), l ≠ k → (p.set k.val s k.isLt)[l] = p[l] :=
    fun k l s hne => Vector.getElem_set_ne k.isLt l.isLt (Fin.val_ne_of_ne hne.symm)
  refine ⟨⟨t, _, ht, Platform.act_of_step ht, Vector.getElem_set_self i.isLt,
    fun k hk => other i k t hk⟩, fun hij => ?_⟩
  have hu' : step (p.set i.val t i.isLt)[j] = .next u := by rw [other i j t hij.symm, hu]
  have ht' : step (p.set j.val u j.isLt)[i] = .next t := by rw [other j i u hij, ht]
  refine ⟨_, _, _, Platform.act_of_step ht, Platform.act_of_step hu', Platform.act_of_step hu, ?_⟩
  rw [Platform.act_of_step ht', Vector.set_comm _ _ (Fin.val_ne_of_ne hij)]

end Sys2Proof.Machine
end

section
/-! The command words (spec/30_encoding.md): the decoder against the encoder and against the opcode
map, and the proofs of the statements about them. -/

namespace Sys2Proof

open Machine (opField argField lane be32 lane_be32)

/-! ### Decoder and encoder -/

/-- Settles O1: the fields of the word select the arm, and the lanes of its argument are the bytes. -/
theorem decodeReadsBackEveryCommand : Obligations.DecodeReadsBackEveryCommand := by
  intro i
  obtain ⟨hop, harg⟩ := encode_fields i
  cases i <;>
    simp [decode, hop, harg, Instr.op, Instr.arg, lane_be32, Machine.be32_low24,
      Machine.be32_low16, Machine.be32_low8]

/-- Settles O2: a word is packed from its two fields, and they are the command's. -/
theorem encodeReadsBackEveryLegalWord : Obligations.EncodeReadsBackEveryLegalWord := by
  intro w i h
  obtain ⟨hop, harg⟩ := decode_command h
  rw [encode, ← hop, ← harg]
  exact Machine.append_fields w

/-- The word of a command decodes to it, and no other word does. -/
theorem decode_eq_command_iff {w : CmdWord} {i : Instr} : decode w = .command i ↔ encode i = w :=
  ⟨encodeReadsBackEveryLegalWord w i, fun h => h ▸ decodeReadsBackEveryCommand i⟩

/-- Two commands have different words. -/
theorem encode_injective : Function.Injective encode := fun i j h => by
  have hd := decodeReadsBackEveryCommand i
  rw [h, decodeReadsBackEveryCommand j] at hd
  exact (Decoded.command.inj hd).symm

/-- A word is illegal exactly when it is no command's word. -/
theorem decode_illegal_iff {w : CmdWord} :
    (∃ why, decode w = .illegal why) ↔ ∀ i, encode i ≠ w := by
  constructor
  · rintro ⟨why, h⟩ i hi
    simp [decode_eq_command_iff.2 hi] at h
  · intro h
    cases hd : decode w with
    | command i => exact absurd (decode_eq_command_iff.1 hd) (h i)
    | illegal why => exact ⟨why, rfl⟩

/-! ### The opcode map -/

/-- A mask over the low bits tests the same bits as the field they form. -/
theorem and_eq_zero_iff_low {v m : Word} {k : Nat} (hm : m.toNat = 2 ^ k - 1) :
    v &&& m = 0 ↔ v.extractLsb' 0 k = 0#k := by
  rw [← BitVec.toNat_inj, ← BitVec.toNat_inj, BitVec.toNat_and, hm, Nat.and_two_pow_sub_one_eq_mod]
  simp

/-- A test of the whole opcode and of some bits of the argument tests the two fields apart (R91). -/
theorem and_mask_iff {w : CmdWord} {op : Byte} {m : Word} :
    w &&& (0xFF#8 ++ m) = op ++ 0#32 ↔ opField w = op ∧ argField w &&& m = 0 := by
  have hw : w &&& (0xFF#8 ++ m) = opField w ++ (argField w &&& m) := by
    conv_lhs => rw [← Machine.append_fields w]
    exact BitVec.and_append.trans (congrArg (· ++ _) BitVec.and_allOnes)
  rw [hw]
  constructor
  · intro h
    have ho := congrArg opField h
    have ha := congrArg argField h
    simp only [Machine.fields_append] at ho ha
    exact ⟨ho, ha⟩
  · rintro ⟨ho, ha⟩
    rw [ho, ha]
    rfl

/-- The argument of NOP, INIT and FINAL is 0 (R92). -/
theorem zero_arg_iff {op : Byte} (h : op ∈ [0x00, 0x01, 0x20]) (v : Word) :
    v = 0 ↔ ∃ i : Instr, i.op = op ∧ i.arg = v := by
  constructor
  · rintro rfl
    simp only [List.mem_cons, List.not_mem_nil, or_false] at h
    rcases h with rfl | rfl | rfl
    · exact ⟨.nop, rfl, rfl⟩
    · exact ⟨.init, rfl, rfl⟩
    · exact ⟨.final, rfl, rfl⟩
  · rintro ⟨i, rfl, rfl⟩
    cases i with
    | nop => rfl
    | init => rfl
    | final => rfl
    | _ => simp [Instr.op] at h

/-- The argument of NOP, INIT and FINAL, by the mask of their rows (R93). -/
theorem full_mask_arg_iff {op : Byte} (h : op ∈ [0x00, 0x01, 0x20]) (v : Word) :
    v &&& 0xFFFFFFFF = 0 ↔ ∃ i : Instr, i.op = op ∧ i.arg = v := by
  rw [← zero_arg_iff h, show v &&& 0xFFFFFFFF = v from BitVec.and_allOnes]

/-- The arguments of ABSORB1, by the mask of its row (R92, R93). -/
theorem absorb1_arg_iff (v : Word) :
    v &&& 0x00FFFFFF = 0 ↔ ∃ i : Instr, i.op = 0x10 ∧ i.arg = v := by
  rw [and_eq_zero_iff_low (k := 24) rfl]
  constructor
  · exact fun h => ⟨.absorb1 _, rfl, (arg_of_low24 h).symm⟩
  · rintro ⟨i, hi, rfl⟩
    cases i with
    | absorb1 b0 => exact Machine.be32_low24 b0
    | _ => simp [Instr.op] at hi

/-- The arguments of ABSORB2, by the mask of its row (R92, R93). -/
theorem absorb2_arg_iff (v : Word) :
    v &&& 0x0000FFFF = 0 ↔ ∃ i : Instr, i.op = 0x11 ∧ i.arg = v := by
  rw [and_eq_zero_iff_low (k := 16) rfl]
  constructor
  · exact fun h => ⟨.absorb2 _ _, rfl, (arg_of_low16 h).symm⟩
  · rintro ⟨i, hi, rfl⟩
    cases i with
    | absorb2 b0 b1 => exact Machine.be32_low16 b0 b1
    | _ => simp [Instr.op] at hi

/-- The arguments of ABSORB3, by the mask of its row (R92, R93). -/
theorem absorb3_arg_iff (v : Word) :
    v &&& 0x000000FF = 0 ↔ ∃ i : Instr, i.op = 0x12 ∧ i.arg = v := by
  rw [and_eq_zero_iff_low (k := 8) rfl]
  constructor
  · exact fun h => ⟨.absorb3 _ _ _, rfl, (arg_of_low8 h).symm⟩
  · rintro ⟨i, hi, rfl⟩
    cases i with
    | absorb3 b0 b1 b2 => exact Machine.be32_low8 b0 b1 b2
    | _ => simp [Instr.op] at hi

/-- The arguments of ABSORB4, by the mask of its row: every word (R92, R93). -/
theorem absorb4_arg_iff (v : Word) :
    v &&& 0x00000000 = 0 ↔ ∃ i : Instr, i.op = 0x13 ∧ i.arg = v :=
  ⟨fun _ => ⟨.absorb4 _ _ _ _, rfl, Machine.be32_lane v⟩, fun _ => BitVec.and_zero⟩

/-- Commands have the same mnemonic exactly when they have the same opcode (R93). -/
theorem mnemonic_eq_iff (i j : Instr) : i.mnemonic = j.mnemonic ↔ i.op = j.op := by
  cases i <;> cases j <;> simp [Instr.mnemonic, Instr.op]

/-- A row that tests for the opcode of its mnemonic, and for the reserved bits of its arguments, accepts
exactly the words of the commands with that mnemonic. -/
theorem row_accepts_iff_of {r : OpcodeRow} {m : Word} {w : CmdWord} (j : Instr)
    (hname : r.mnemonic = j.mnemonic) (hmask : r.mask = 0xFF#8 ++ m)
    (hpat : r.pattern = j.op ++ 0#32)
    (harg : ∀ v, v &&& m = 0 ↔ ∃ i : Instr, i.op = j.op ∧ i.arg = v) :
    w &&& r.mask = r.pattern ↔ ∃ i, encode i = w ∧ i.mnemonic = r.mnemonic := by
  rw [hmask, hpat, and_mask_iff, harg, hname]
  simp only [mnemonic_eq_iff]
  constructor
  · rintro ⟨ho, i, hi, ha⟩
    exact ⟨i, by rw [encode, hi, ha, ← ho]; exact Machine.append_fields w, hi⟩
  · rintro ⟨i, rfl, hi⟩
    obtain ⟨ho, ha⟩ := encode_fields i
    exact ⟨ho.trans hi, i, hi, ha.symm⟩

/-- A row of the opcode map accepts exactly the words of the commands with its mnemonic (R93). -/
theorem row_accepts_iff {r : OpcodeRow} {w : CmdWord} (hr : r ∈ opcodeMap) :
    w &&& r.mask = r.pattern ↔ ∃ i, encode i = w ∧ i.mnemonic = r.mnemonic := by
  simp only [opcodeMap, List.mem_cons, List.not_mem_nil, or_false] at hr
  rcases hr with rfl | rfl | rfl | rfl | rfl | rfl | rfl
  · exact row_accepts_iff_of .nop rfl rfl rfl (full_mask_arg_iff (by decide))
  · exact row_accepts_iff_of .init rfl rfl rfl (full_mask_arg_iff (by decide))
  · exact row_accepts_iff_of (.absorb1 0) rfl rfl rfl absorb1_arg_iff
  · exact row_accepts_iff_of (.absorb2 0 0) rfl rfl rfl absorb2_arg_iff
  · exact row_accepts_iff_of (.absorb3 0 0 0) rfl rfl rfl absorb3_arg_iff
  · exact row_accepts_iff_of (.absorb4 0 0 0 0) rfl rfl rfl absorb4_arg_iff
  · exact row_accepts_iff_of .final rfl rfl rfl (full_mask_arg_iff (by decide))

/-- Every command has a row (R93). -/
theorem exists_row (i : Instr) : ∃ r ∈ opcodeMap, i.mnemonic = r.mnemonic := by
  cases i <;> simp [opcodeMap, Instr.mnemonic]

/-- The seven mnemonics are different (R93). -/
theorem row_eq_of_mnemonic {r r' : OpcodeRow} (hr : r ∈ opcodeMap) (hr' : r' ∈ opcodeMap)
    (h : r.mnemonic = r'.mnemonic) : r = r' := by
  have hall : ∀ a ∈ opcodeMap, ∀ b ∈ opcodeMap, a.mnemonic = b.mnemonic → a = b := by decide
  exact hall r hr r' hr' h

/-- Settles O3: rows accept words of commands, and every word of a command has one row. -/
theorem decodeAgreesWithOpcodeMap : Obligations.DecodeAgreesWithOpcodeMap := by
  refine ⟨fun w r hr => ?_, fun w => ?_, fun w r r' hr hr' h h' => ?_⟩
  · simp only [row_accepts_iff hr, decode_eq_command_iff]
  · rw [decode_illegal_iff]
    constructor
    · intro h r hr hacc
      obtain ⟨i, hi, -⟩ := (row_accepts_iff hr).1 hacc
      exact h i hi
    · intro h i hi
      obtain ⟨r, hr, hname⟩ := exists_row i
      exact h r hr ((row_accepts_iff hr).2 ⟨i, hi, hname⟩)
  · obtain ⟨i, hi, hname⟩ := (row_accepts_iff hr).1 h
    obtain ⟨i', hi', hname'⟩ := (row_accepts_iff hr').1 h'
    obtain rfl := encode_injective (hi.trans hi'.symm)
    exact row_eq_of_mnemonic hr hr' (hname.symm.trans hname')

/-! ### Illegal words -/

/-- A word is illegal exactly when no command has its two fields. -/
theorem decode_illegal_iff_fields {w : CmdWord} :
    (∃ why, decode w = .illegal why) ↔ ¬ ∃ i : Instr, i.op = opField w ∧ i.arg = argField w := by
  rw [decode_illegal_iff, not_exists]
  refine forall_congr' fun i => not_congr ⟨?_, ?_⟩
  · rintro rfl
    obtain ⟨ho, ha⟩ := encode_fields i
    exact ⟨ho.symm, ha.symm⟩
  · rintro ⟨ho, ha⟩
    rw [encode, ho, ha]
    exact Machine.append_fields w

/-- Every command has one of the seven opcodes (R93). -/
theorem op_mem (i : Instr) : i.op ∈ [0x00, 0x01, 0x10, 0x11, 0x12, 0x13, 0x20] := by
  cases i <;> simp [Instr.op]

/-- The illegal words are those of R95's three cases. -/
theorem decode_illegal_cases (w : CmdWord) :
    (∃ why, decode w = .illegal why) ↔
      (opField w ∉ [0x00, 0x01, 0x10, 0x11, 0x12, 0x13, 0x20]) ∨
      (opField w ∈ [0x00, 0x01, 0x20] ∧ argField w ≠ 0) ∨
      (opField w = 0x10 ∧ argField w &&& 0x00FFFFFF ≠ 0) ∨
      (opField w = 0x11 ∧ argField w &&& 0x0000FFFF ≠ 0) ∨
      (opField w = 0x12 ∧ argField w &&& 0x000000FF ≠ 0) := by
  rw [decode_illegal_iff_fields]
  by_cases h : opField w ∈ [0x00, 0x01, 0x10, 0x11, 0x12, 0x13, 0x20]
  · simp only [List.mem_cons, List.not_mem_nil, or_false] at h
    rcases h with h | h | h | h | h | h | h <;> rw [h]
    · simpa using not_congr (zero_arg_iff (op := 0x00) (by decide) (argField w)).symm
    · simpa using not_congr (zero_arg_iff (op := 0x01) (by decide) (argField w)).symm
    · simpa using not_congr (absorb1_arg_iff (argField w)).symm
    · simpa using not_congr (absorb2_arg_iff (argField w)).symm
    · simpa using not_congr (absorb3_arg_iff (argField w)).symm
    · simpa using (absorb4_arg_iff (argField w)).1 BitVec.and_zero
    · simpa using not_congr (zero_arg_iff (op := 0x20) (by decide) (argField w)).symm
  · refine iff_of_true ?_ (.inl h)
    rintro ⟨i, hi, -⟩
    exact h (hi ▸ op_mem i)

/-- R95's count of the undefined opcodes, taken a quarter of the opcodes at a time. -/
theorem undefined_opcode_count :
    ((List.range 256).filter fun n =>
      BitVec.ofNat 8 n ∉ [0x00, 0x01, 0x10, 0x11, 0x12, 0x13, 0x20]).length = 249 := by
  rw [show 256 = 64 + 64 + 64 + 64 from rfl]
  simp only [List.range_add, List.filter_append, List.length_append]
  decide

/-- Settles O4: the cases of the illegal words, the count, and the whole state after Error(ILLEGAL). -/
theorem illegalWordsOnlyRaiseIllegal : Obligations.IllegalWordsOnlyRaiseIllegal := by
  refine ⟨decode_illegal_cases, undefined_opcode_count, fun w why s hd hb => ?_⟩
  have he : Machine.wordEffect w s.engine = s.engine.raise .illegal (opField w) (argField w) := by
    rw [Machine.wordEffect, hd]
  rw [Machine.takeWord_ready w hb, he, Machine.Engine.raise_illegal]

/-! ### Message bytes -/

/-- Lane n of an argument as a shift (R64). -/
theorem lane_eq_shift (v : Word) (n : Nat) : lane v n = (v >>> (24 - 8 * n)).setWidth 8 := by
  apply BitVec.eq_of_getLsbD_eq
  intro i hi
  simp [lane, hi]

/-- Every argument is packed from its command's bytes, in order, then zeros (R92). -/
theorem arg_eq_be32 (i : Instr) :
    i.arg = be32 (i.bytes.getD 0 0) (i.bytes.getD 1 0) (i.bytes.getD 2 0) (i.bytes.getD 3 0) := by
  cases i <;> rfl

/-- The lanes of an argument are its command's bytes, then zeros (R92). -/
theorem lane_arg (i : Instr) {n : Nat} (hn : n < 4) : lane i.arg n = i.bytes.getD n 0 := by
  rw [arg_eq_be32]
  obtain ⟨h0, h1, h2, h3⟩ :=
    lane_be32 (i.bytes.getD 0 0) (i.bytes.getD 1 0) (i.bytes.getD 2 0) (i.bytes.getD 3 0)
  interval_cases n
  exacts [h0, h1, h2, h3]

/-- An ABSORBk carries one byte more than the two low bits of its opcode say (R91). -/
theorem absorb_bytes_length {i : Instr} (hi : i.isAbsorb = true) :
    i.bytes.length = (i.op.extractLsb' 0 2).toNat + 1 := by
  cases i with
  | nop | init | final => cases hi
  | _ => simp [Instr.bytes, Instr.op]

theorem absorb_bytes_length_le {i : Instr} (hi : i.isAbsorb = true) : i.bytes.length ≤ 4 := by
  rw [absorb_bytes_length hi]
  omega

/-- Settles O6: the word's fields are the command's, and the lanes of its argument are its bytes, then
zeros. -/
theorem absorbLanesAreMessageBytes : Obligations.AbsorbLanesAreMessageBytes := by
  intro w i hd hi
  obtain ⟨hop, harg⟩ := decode_command hd
  have hle := absorb_bytes_length_le hi
  rw [hop, harg]
  simp only [← lane_eq_shift]
  refine ⟨absorb_bytes_length hi, fun n hn => ?_, fun n hn hn4 => ?_⟩
  · rw [lane_arg i (by omega), List.getD_eq_getElem _ _ hn]
  · rw [lane_arg i hn4, List.getD_eq_default _ _ hn]

/-! ### Host lines -/

/-- Settles O5: the fixed lines and words, evaluated. -/
theorem workedEncodings : Obligations.WorkedEncodings := by
  unfold Obligations.WorkedEncodings
  decide

/-- Settles O58, along the groups of four bytes. -/
theorem absorbsCarriesTheBytes : Obligations.AbsorbsCarriesTheBytes := by
  intro s
  induction s using Machine.absorbsOf.induct with
  | case1 b0 b1 b2 b3 rest ih =>
    obtain ⟨hb, ha, hl, hd⟩ := ih
    refine ⟨?_, ?_, ?_, ?_⟩
    · rw [Machine.absorbsOf, List.flatMap_cons, hb]
      rfl
    · exact List.forall_mem_cons.2 ⟨rfl, ha⟩
    · simp only [Machine.absorbsOf, List.length_cons, hl]
      omega
    · rw [Machine.absorbsOf]
      cases hr : Machine.absorbsOf rest with
      | nil => simp
      | cons i is =>
        rw [List.dropLast_cons_cons, ← hr]
        exact List.forall_mem_cons.2 ⟨rfl, hd⟩
  | _ => simp [Machine.absorbsOf, Instr.bytes, Instr.isAbsorb]

end Sys2Proof

namespace Sys2Proof.Machine

/-! ### The command port -/

/-- Where CMD_READY = 1, taking a legal word is `exec` of its command, with the word off the port (R90). -/
theorem takeWord_command {w : CmdWord} {i : Instr} (h : decode w = .command i) (s : State) :
    takeWord w s = exec i (s.withCmdWord none) := by
  rw [takeWord, h]

/-- The turn of the engine's side with a legal word held, where CMD_READY = 1 (R90). -/
theorem engineTurn_exec {s : State} {w : CmdWord} {i : Instr} (hb : s.engine.mode ≠ .busy)
    (hw : s.host.cmdWord = some w) (h : decode w = .command i) :
    engineTurn s = exec i (s.withCmdWord none) := by
  rw [engineTurn, if_neg hb, hw]
  exact takeWord_command h s

/-- A port with no word is as it was when none is put there. -/
theorem State.withCmdWord_self {s : State} {w : Option CmdWord} (h : s.host.cmdWord = w) :
    s.withCmdWord w = s := by
  rw [← h]
  rfl

/-- Settles O7: each move in which the port takes the word is a turn of the engine's side or an issue on
a free port. -/
theorem stepRunsTheDecodedCommand : Obligations.StepRunsTheDecodedCommand := by
  intro s w i hb hd
  refine ⟨fun hw ha => ?_, fun rest hw ha => ?_, fun rest hw ha => ?_, fun v rest hw ha => ?_,
    fun rest hw ha => ?_, ?_⟩
  · exact (step_nil ha).trans (engineTurn_exec hb hw hd)
  · exact (step_engine ha).trans (engineTurn_exec (s := s.withAgenda rest) hb hw hd)
  · exact (step_sync_held ha hw).trans (engineTurn_exec hb hw hd)
  · exact (step_issue_held ha hw).trans (engineTurn_exec hb hw hd)
  · rw [step_issue_free ha hw]
    have hi : issueWord w (s.withAgenda rest) = takeWord w (s.withAgenda rest) := if_neg hb
    rw [hi, takeWord_command hd, State.withCmdWord_self (by exact hw)]
  · have hw : (s.withFetchWord 40 w.toNat).host.cmdWord = some w :=
      congrArg some (by rw [Nat.mod_eq_of_lt w.isLt, BitVec.ofNat_toNat, BitVec.setWidth_eq])
    exact (step_engine rfl).trans (engineTurn_exec hb hw hd)

/-- Settles O8: an engine step is all a turn of the engine's side does while BUSY. -/
theorem commandsWaitWhileBusy : Obligations.CommandsWaitWhileBusy := by
  intro s hb
  refine ⟨fun i => ?_, fun w rest hw ha => ?_, fun w hw ha => ?_, fun w rest hw ha => ?_,
    fun w v rest hw ha => ?_, fun w rest hw ha => ?_⟩
  · rw [exec_eq_effect, whenReady_busy hb]
  · exact (step_issue_free ha hw).trans (issueWord_busy w hb)
  · exact (step_nil ha).trans (engineTurn_busy hb)
  · exact (step_engine ha).trans (engineTurn_busy hb)
  · exact (step_issue_held ha hw).trans (engineTurn_busy hb)
  · exact (step_sync_held ha hw).trans (engineTurn_busy hb)

end Sys2Proof.Machine
end

section
/-! One block (spec/42_schedule_and_round.md): the engine at a round of a block against the source's
working variables and words, and the engine once it has finished its steps. -/

namespace Sys2Proof.Machine

open Source (Block)

/-- The engine is about to make round t of block b: A..E are the source's after t rounds from H, and the
window holds the source's 16 latest words (R202, R203). At t = 80 ACCUM is next. -/
structure Engine.AtRound (e : Engine) (b : Block) (t : Nat) : Prop where
  mode : e.mode = .busy
  counter : e.t.toNat = t
  vars : e.x = Source.rounds e.h b t
  window : ∀ j, 1 ≤ j → j ≤ 16 → e.wAt (max t 16 - j) = (Source.expand b).getD (max t 16 - j) 0

/-- A started block: A..E are H, and W is the block's words (R140). -/
theorem Engine.atRound_zero {e : Engine} {b : Block} (hm : e.mode = .busy) (ht : e.t = 0)
    (hx : e.x = e.h) (hw : e.w = Vector.ofFn fun n : Fin 16 => Source.blockWord b n.val) :
    e.AtRound b 0 where
  mode := hm
  counter := by rw [ht]; rfl
  vars := hx
  window := fun j h1 h16 => by
    rw [Nat.max_eq_right (by decide), Engine.wAt_eq _ (by omega), Source.expand_first _ (by omega)]
    simp [hw]

theorem Engine.blockStart_atRound (e : Engine) : e.blockStart.AtRound e.block 0 :=
  Engine.atRound_zero rfl rfl rfl rfl

/-- ROUND writes A..E, W and T only (R203): what differs in these only still does after it. -/
theorem Engine.round_frame {e r : Engine} (h : r = { e with x := r.x, w := r.w, t := r.t }) :
    r.round = { e with x := r.round.x, w := r.round.w, t := r.round.t } := by
  simpa [Engine.ext_iff] using h

namespace Engine.AtRound

variable {e : Engine} {b : Block}

/-- A round of the engine is a round of the source (R203, R204). -/
theorem round {t : Nat} (h : e.AtRound b t) (ht : t < 80) : e.round.AtRound b (t + 1) where
  mode := h.mode
  counter := by rw [e.round_t_toNat (by rw [h.counter]; exact ht), h.counter]
  vars := by
    have hs := Engine.schedWord_of_window ht h.window
    rw [Engine.round_h, Source.rounds_succ, ← h.vars, ← hs]
    simp only [Engine.round, h.counter, Source.round, sum5]
  window := Engine.round_window ht h.counter h.window

/-- The first 80 engine steps of a block are rounds, and write A..E, W and T only (R202, R203). -/
theorem steps (h : e.AtRound b 0) {n : Nat} (hn : n ≤ 80) :
    (e.steps n).AtRound b n ∧
      e.steps n = { e with x := (e.steps n).x, w := (e.steps n).w, t := (e.steps n).t } := by
  induction n with
  | zero => exact ⟨h, rfl⟩
  | succ n ih =>
    obtain ⟨hr, he⟩ := ih (by omega)
    have hs : e.steps (n + 1) = (e.steps n).round :=
      (e.steps_succ n).trans (Engine.step_round _ (by rw [hr.counter]; omega))
    rw [hs]
    exact ⟨hr.round (by omega), Engine.round_frame he⟩

/-- After the rounds of a block ACCUM leaves the source's compression in H (R205, R209). -/
theorem sumH (h : e.AtRound b 80) : e.sumH = Source.compress e.h b := by
  rw [Source.compress, ← h.vars]
  rfl

/-- A block takes 80 rounds, which leave H and what comes after the block alone, and one ACCUM (R207,
R209). -/
theorem steps_81 (h : e.AtRound b 0) :
    ∃ r : Engine, e.steps 81 = r.accum ∧ r.sumH = Source.compress e.h b ∧
      r = { e with x := r.x, w := r.w, t := r.t } := by
  obtain ⟨hr, he⟩ := h.steps (Nat.le_refl 80)
  refine ⟨e.steps 80, ?_, ?_, he⟩
  · rw [Engine.steps_succ, Engine.step_accum _ (by rw [hr.counter]; decide)]
  · rw [hr.sumH, he]

end Engine.AtRound

/-- The engine once it has made the steps it has left (R207). -/
def Engine.settled (e : Engine) : Engine := e.steps e.stepsLeft

/-- An engine that is not BUSY has no steps left (R207). -/
theorem Engine.settled_of_ready {e : Engine} (h : e.mode ≠ .busy) : e.settled = e := by
  have hz : e.stepsLeft = 0 := if_neg h
  rw [Engine.settled, hz]
  rfl

namespace Engine.AtRound

variable {e : Engine} {b : Block}

/-- The engine steps of a block: 81, and 81 more for the second padding block (R207). -/
theorem stepsLeft (h : e.AtRound b 0) :
    e.stepsLeft = if e.next = .second then 162 else 81 := by
  rw [Engine.stepsLeft, if_pos h.mode, h.counter]
  split <;> rfl

/-- After a block of the message the engine is READY, with the block compressed into H, and the bytes
of the next block stay (R205, R206, R209). -/
theorem settled_resume (h : e.AtRound b 0) (hn : e.next = .resume) :
    ∃ x w, e.settled = { e with
      h := Source.compress e.h b, x := x, w := w, t := 0, mode := .ready } := by
  obtain ⟨r, hs, hh, hr⟩ := h.steps_81
  have hl : e.stepsLeft = 81 := by rw [h.stepsLeft, hn]; rfl
  refine ⟨r.x, r.w, ?_⟩
  rw [Engine.settled, hl, hs, r.accum_resume (by rw [hr, hn]), hh]
  conv_lhs => rw [hr]

/-- After the only final block the engine is DONE, with the block compressed into H (R205, R206). -/
theorem settled_finish (h : e.AtRound b 0) (hn : e.next = .finish) :
    e.settled.mode = .done ∧ e.settled.h = Source.compress e.h b := by
  obtain ⟨r, hs, hh, hr⟩ := h.steps_81
  have hl : e.stepsLeft = 81 := by rw [h.stepsLeft, hn]; rfl
  rw [Engine.settled, hl, hs, r.accum_finish (by rw [hr, hn])]
  exact ⟨rfl, hh⟩

/-- After the first of two final blocks comes the second, the one in BUF, and then the engine is DONE
(R206, R130). -/
theorem settled_second (h : e.AtRound b 0) (hn : e.next = .second) :
    e.settled.mode = .done ∧ e.settled.h = Source.compress (Source.compress e.h b) e.block := by
  obtain ⟨r, hs, hh, hr⟩ := h.steps_81
  have hl : e.stepsLeft = 81 + 81 := by rw [h.stepsLeft, hn]; rfl
  rw [r.accum_second (by rw [hr, hn]), hh] at hs
  have hl' : (e.steps 81).stepsLeft = 81 := by rw [hs]; rfl
  have hset : e.settled = (e.steps 81).settled := by
    rw [Engine.settled, Engine.settled, hl, hl', Engine.steps_add]
  obtain ⟨hm, hc⟩ := (Engine.blockStart_atRound
    { r with h := Source.compress e.h b, next := .finish }).settled_finish rfl
  rw [hset, hs]
  refine ⟨hm, hc.trans (congrArg _ ?_)⟩
  change r.buf = e.buf
  rw [hr]

end Engine.AtRound

end Sys2Proof.Machine
end

section
/-! Whole messages (spec/40_padding_and_blocks.md, spec/42_schedule_and_round.md R210): the engine
between two commands of an open message, and after FINAL, against the source's digest. -/

namespace Sys2Proof.Source

open Machine

/-- A block in front of a buffer is its first block (R133). -/
theorem chunk_cons (b : Block) (p : List Byte) : chunk (b.toList ++ p) = b :: chunk p := by
  have hlen : (b.toList ++ p).length / 64 = p.length / 64 + 1 := by
    rw [List.length_append, Vector.length_toList]
    omega
  have hfirst : blockAt (b.toList ++ p) 0 = b := by
    apply Vector.ext
    intro j hj
    simp only [blockAt, Vector.getElem_ofFn, List.getD_eq_getElem?_getD]
    rw [List.getElem?_append_left (by simp; omega)]
    simp [hj]
  have hrest : ∀ i, blockAt (b.toList ++ p) (i + 1) = blockAt p i := by
    intro i
    apply Vector.ext
    intro j hj
    simp only [blockAt, Vector.getElem_ofFn, List.getD_eq_getElem?_getD]
    rw [List.getElem?_append_right (by simp; omega), Vector.length_toList]
    congr 2
    omega
  rw [chunk, hlen]
  simp [chunk, List.range_succ_eq_map, hfirst, hrest, Function.comp_def]

/-- Blocks in a row are cut into themselves (R133). -/
theorem chunk_flatMap (bl : List Block) : chunk (bl.flatMap Vector.toList) = bl := by
  induction bl with
  | nil => rfl
  | cons b bl ih => rw [List.flatMap_cons, chunk_cons, ih]

/-- The digest of a message whose padded buffer is the blocks `bl` in a row (R210). -/
theorem digest_of_blocks {m : List Byte} {bl : List Block}
    (h : pad m = bl.flatMap Vector.toList) : digest m = bl.foldl compress Config.iv := by
  rw [digest, h, chunk_flatMap]

end Sys2Proof.Source

namespace Sys2Proof.Machine

open Source (Block)

/-! ### The block buffer as a list of bytes -/

/-- Bytes that fit the block stand in BUF after those that stood there (R126). -/
theorem Engine.foldl_absorbByte_take (bs : List Byte) (e : Engine)
    (h : e.fill.toNat + bs.length ≤ 64) :
    (bs.foldl Engine.absorbByte e).buf.toList.take (e.fill.toNat + bs.length) =
      e.buf.toList.take e.fill.toNat ++ bs := by
  have hf := e.fill.isLt
  refine List.ext_getElem (by simp; omega) fun j hj _ => ?_
  have hj' : j < e.fill.toNat + bs.length ∧ j < 64 := by simpa using hj
  rw [List.getElem_take, Vector.getElem_toList, ← Engine.bufByte_eq _ hj'.2]
  by_cases hlt : j < e.fill.toNat
  · rw [List.getElem_append_left (by simp; omega), List.getElem_take, Vector.getElem_toList,
      ← Engine.bufByte_eq _ hj'.2]
    refine Engine.foldl_absorbByte_miss bs e hj'.2 fun n hn => ?_
    simp only [Engine.absorbPos]
    omega
  · have hp : e.absorbPos (j - e.fill.toNat) = j := by
      simp only [Engine.absorbPos]
      omega
    have hl : (e.buf.toList.take e.fill.toNat).length = e.fill.toNat := by simp; omega
    rw [List.getElem_append_right (by omega), ← Engine.foldl_absorbByte_hit bs e (by omega)]
    simp only [hl, hp]

/-- The bytes of the block a list completes (R126). -/
theorem Engine.completedBlock_toList (bs : List Byte) (e : Engine)
    (h : e.fill.toNat + bs.length = 64) :
    (e.completedBlock bs).toList = e.buf.toList.take e.fill.toNat ++ bs := by
  have ht := Engine.foldl_absorbByte_take bs e (by omega)
  rwa [h, Engine.foldl_absorbByte_completes bs e h, List.take_of_length_le (by simp)] at ht

/-- Byte i of the length field (R63). -/
theorem be64bytes_getElem (v : BitVec 64) {i : Nat} (hi : i < (be64bytes v).length) :
    (be64bytes v)[i] = be64Byte v i := by
  have hi' : i < 8 := hi
  interval_cases i <;> rfl

/-- A block that holds the bytes in BUF before FILL and a list of bytes after them. -/
theorem Engine.toList_of_getElem {e : Engine} {v : Block} {l : List Byte}
    (hl : e.fill.toNat + l.length = 64)
    (h : ∀ j (hj : j < 64), v[j] =
      if j < e.fill.toNat then e.bufByte j else l.getD (j - e.fill.toNat) 0) :
    v.toList = e.buf.toList.take e.fill.toNat ++ l := by
  rw [← Engine.completedBlock_toList l e hl]
  refine congrArg Vector.toList (Vector.ext fun j hj => ?_)
  rw [h j hj, Engine.completedBlock, Vector.getElem_ofFn]

/-- A flag byte, `n` zeros and a list, byte by byte. -/
theorem getD_flag (n i : Nat) (l : List Byte) :
    (0x80 :: List.replicate n 0x00 ++ l).getD i 0 =
      if i = 0 then 0x80 else if i ≤ n then 0x00 else l.getD (i - 1 - n) 0 := by
  cases i with
  | zero => rfl
  | succ i =>
    rw [List.cons_append, List.getD_cons_succ]
    simp only [List.getD_eq_getElem?_getD]
    by_cases h : i < n
    · rw [List.getElem?_append_left (by simpa using h), if_neg (by omega), if_pos (by omega)]
      simp [h]
    · rw [List.getElem?_append_right (by simpa using h), if_neg (by omega), if_neg (by omega),
        List.length_replicate, Nat.add_sub_cancel]

/-- The one padding block: the message bytes in BUF, the flag byte, zeros and the length (R130, R131). -/
theorem Engine.pad_one_toList {e : Engine} (h : e.fill.toNat ≤ 55) :
    e.pad.buf.toList = e.buf.toList.take e.fill.toNat ++
      (0x80 :: List.replicate (55 - e.fill.toNat) 0x00 ++ be64bytes e.bitLength) := by
  refine Engine.toList_of_getElem (by simp [be64bytes]; omega) fun j hj => ?_
  rw [← Engine.bufByte_eq _ hj, e.pad_one_bufByte h hj, getD_flag]
  by_cases h1 : j < e.fill.toNat
  · rw [if_pos h1, if_pos h1]
  by_cases h2 : j = e.fill.toNat
  · rw [if_neg h1, if_pos h2, if_neg h1, if_pos (by omega)]
  by_cases h3 : j < 56
  · rw [if_neg h1, if_neg h2, if_pos h3, if_neg h1, if_neg (by omega), if_pos (by omega)]
  · rw [if_neg h1, if_neg h2, if_neg h3, if_neg h1, if_neg (by omega), if_neg (by omega),
      show j - e.fill.toNat - 1 - (55 - e.fill.toNat) = j - 56 by omega,
      List.getD_eq_getElem _ _ (by simp [be64bytes]; omega), be64bytes_getElem]

/-- The flagged block: the message bytes in BUF, the flag byte and zeros (R130). -/
theorem Engine.flaggedBlock_toList (e : Engine) :
    (e.flaggedBlock e.fill.toNat).toList = e.buf.toList.take e.fill.toNat ++
      (0x80 :: List.replicate (63 - e.fill.toNat) 0x00 ++ []) := by
  have hf := e.fill.isLt
  refine Engine.toList_of_getElem (by simp; omega) fun j hj => ?_
  rw [Engine.flaggedBlock, Vector.getElem_ofFn, getD_flag]
  by_cases h1 : j < e.fill.toNat
  · rw [if_pos h1, if_pos h1]
  by_cases h2 : j = e.fill.toNat
  · rw [if_neg h1, if_pos h2, if_neg h1, if_pos (by omega)]
  · rw [if_neg h1, if_neg h2, if_neg h1, if_neg (by omega), if_pos (by omega)]

/-- The second padding block: zeros and the length (R130). -/
theorem Engine.pad_two_toList {e : Engine} (h : 56 ≤ e.fill.toNat) :
    e.pad.buf.toList = List.replicate 56 0x00 ++ be64bytes e.bitLength := by
  refine List.ext_getElem (by simp [be64bytes]) fun j hj _ => ?_
  have hj' : j < 64 := by simpa using hj
  rw [Vector.getElem_toList, ← Engine.bufByte_eq _ hj', e.pad_two_bufByte h hj']
  by_cases h1 : j < 56
  · rw [if_pos h1, List.getElem_append_left (by simpa using h1), List.getElem_replicate]
  · rw [if_neg h1, List.getElem_append_right (by simpa using h1), be64bytes_getElem,
      List.length_replicate]

/-- Bytes that complete the block, and fewer than 64 after them: the block has started, and the bytes
after it stand at the start of BUF (R126, R140). -/
theorem Engine.foldl_absorbByte_across {e : Engine} {bs cs : List Byte}
    (hf : e.fill.toNat + bs.length = 64) (hc : cs.length ≤ 63) :
    ((bs ++ cs).foldl Engine.absorbByte e).AtRound (e.completedBlock bs) 0 ∧
      ((bs ++ cs).foldl Engine.absorbByte e).next = .resume ∧
      ((bs ++ cs).foldl Engine.absorbByte e).h = e.h ∧
      ((bs ++ cs).foldl Engine.absorbByte e).buf.toList.take
        ((bs ++ cs).foldl Engine.absorbByte e).fill.toNat = cs := by
  have hbs := Engine.foldl_absorbByte_completes bs e hf
  rw [List.foldl_append]
  generalize bs.foldl Engine.absorbByte e = e' at hbs ⊢
  have hfill : e'.fill.toNat = 0 := by rw [hbs]; rfl
  have hin := Engine.foldl_absorbByte_inside cs e' (by omega)
  have htake := Engine.foldl_absorbByte_take cs e' (by omega)
  obtain ⟨hh, -, hf', -⟩ := Engine.foldl_absorbByte cs e'
  have hlen : (cs.foldl Engine.absorbByte e').fill.toNat = e'.fill.toNat + cs.length := by
    rw [hf', BitVec.toNat_add, BitVec.toNat_ofNat]
    omega
  refine ⟨?_, by rw [hin, hbs]; rfl, by rw [hh, hbs]; rfl, ?_⟩
  · rw [hin, hbs]
    exact Engine.atRound_zero rfl rfl rfl rfl
  · rw [hlen, htake, hfill, List.take_zero, List.nil_append]

/-! ### The open message -/

/-- The engine between two commands of an open message m: the whole blocks of m are compressed into H, and
the rest of m stands in BUF (R24, R25, R26, R210). -/
structure Engine.Holds (e : Engine) (m : List Byte) : Prop where
  mode : e.mode = .ready
  count : e.nbytes.toNat = m.length
  blocks : ∃ bl : List Block, e.h = bl.foldl Source.compress Config.iv ∧
    m = bl.flatMap Vector.toList ++ e.buf.toList.take e.fill.toNat

/-- After reset or INIT the empty message is open (R342, R271). -/
theorem Engine.holds_reset : Engine.reset.Holds [] where
  mode := rfl
  count := rfl
  blocks := ⟨[], rfl, rfl⟩

namespace Engine.Holds

variable {e : Engine} {m : List Byte}

/-- FILL counts the bytes after the last whole block (R25; R40 item 3). -/
theorem fill (h : e.Holds m) : e.fill.toNat = m.length % 64 := by
  obtain ⟨bl, -, hm⟩ := h.blocks
  have hf := e.fill.isLt
  have hb : (bl.flatMap Vector.toList).length = 64 * bl.length := by
    simp [Nat.mul_comm]
  have hlen := congrArg List.length hm
  rw [List.length_append, hb, List.length_take, Vector.length_toList] at hlen
  omega

/-- The 64-bit length of the message in bits (R130). -/
theorem bitLength (h : e.Holds m) : e.bitLength = BitVec.ofNat 64 (8 * m.length) := by
  rw [Engine.bitLength, ← h.count]
  exact BitVec.eq_of_toNat_eq (by simp [Nat.mul_comm])

/-- NBYTES counts more bytes of the message without wrapping (R26). -/
theorem absorb_count (h : e.Holds m) {bs : List Byte}
    (hl : m.length + bs.length ≤ Config.maxBytes) :
    (bs.foldl Engine.absorbByte e).nbytes.toNat = (m ++ bs).length := by
  obtain ⟨-, hn, -⟩ := Engine.foldl_absorbByte bs e
  simp only [Config.maxBytes] at hl
  rw [hn, BitVec.toNat_add, h.count, BitVec.toNat_ofNat, List.length_append]
  omega

/-- Bytes that stay inside the block (R120, R126). -/
theorem absorb_inside (h : e.Holds m) {bs : List Byte} (hf : e.fill.toNat + bs.length ≤ 63)
    (hl : m.length + bs.length ≤ Config.maxBytes) :
    (bs.foldl Engine.absorbByte e).Holds (m ++ bs) where
  mode := by rw [Engine.foldl_absorbByte_inside bs e hf]; exact h.mode
  count := h.absorb_count hl
  blocks := by
    obtain ⟨bl, hh, hm⟩ := h.blocks
    obtain ⟨hh', -, hfill, -⟩ := Engine.foldl_absorbByte bs e
    have hn : (bs.foldl Engine.absorbByte e).fill.toNat = e.fill.toNat + bs.length := by
      rw [hfill, BitVec.toNat_add, BitVec.toNat_ofNat]
      omega
    refine ⟨bl, hh'.trans hh, ?_⟩
    rw [hn, Engine.foldl_absorbByte_take bs e (by omega), hm, List.append_assoc]

/-- Bytes that complete the block, and the ones after them: once the engine has finished the block, the
message is longer by both (R120, R126). -/
theorem absorb_across (h : e.Holds m) {bs cs : List Byte} (hf : e.fill.toNat + bs.length = 64)
    (hc : cs.length ≤ 63) (hl : m.length + (bs ++ cs).length ≤ Config.maxBytes) :
    ((bs ++ cs).foldl Engine.absorbByte e).settled.Holds (m ++ (bs ++ cs)) := by
  obtain ⟨bl, hh, hm⟩ := h.blocks
  have hcount := h.absorb_count hl
  obtain ⟨hat, hn, hh', hbuf⟩ := Engine.foldl_absorbByte_across hf hc
  obtain ⟨x, w, hs⟩ := hat.settled_resume hn
  rw [hs]
  refine ⟨rfl, hcount, bl ++ [e.completedBlock bs], ?_, ?_⟩
  · rw [List.foldl_concat, ← hh, ← hh']
  · rw [hbuf, List.flatMap_append, List.flatMap_singleton, Engine.completedBlock_toList bs e hf, hm]
    simp

/-- An ABSORBk in an open message, once the engine has finished its steps (R120). -/
theorem absorb (h : e.Holds m) {bs : List Byte} (hb : bs.length ≤ 64)
    (hl : m.length + bs.length ≤ Config.maxBytes) :
    (bs.foldl Engine.absorbByte e).settled.Holds (m ++ bs) := by
  by_cases hf : e.fill.toNat + bs.length ≤ 63
  · have hi := h.absorb_inside hf hl
    rwa [Engine.settled_of_ready (by rw [hi.mode]; decide)]
  · have hlt := e.fill.isLt
    have hsplit := List.take_append_drop (64 - e.fill.toNat) bs
    rw [← hsplit] at hl ⊢
    exact h.absorb_across (by simp; omega) (by simp; omega) hl

/-- The padded buffer of the open message: its whole blocks, the bytes in BUF, and FINAL's padding
(R131, R133). -/
theorem pad_eq (h : e.Holds m) {bl : List Block}
    (hm : m = bl.flatMap Vector.toList ++ e.buf.toList.take e.fill.toNat) :
    Source.pad m = bl.flatMap Vector.toList ++ (e.buf.toList.take e.fill.toNat ++
      (0x80 :: List.replicate (Source.zeroRun m.length) 0x00 ++ be64bytes e.bitLength)) := by
  rw [Source.pad, h.bitLength, ← List.append_assoc, ← hm, List.append_assoc]

/-- FINAL in an open message, once the engine has finished its steps: DONE, with the source's digest in
H (R130, R210). -/
theorem pad_settled (h : e.Holds m) :
    e.pad.settled.mode = .done ∧ e.pad.settled.h = Source.digest m := by
  obtain ⟨bl, hh, hm⟩ := h.blocks
  obtain ⟨ph, px, -, -, pt, pm, pn, -⟩ := e.pad_fields
  have hpad := h.pad_eq hm
  rw [Source.zeroRun_eq, ← h.fill] at hpad
  by_cases hf : e.fill.toNat ≤ 55
  · rw [if_pos hf] at hpad pn
    have hat := Engine.atRound_zero pm pt (px.trans ph.symm) (e.pad_one_w hf)
    obtain ⟨hmode, hdone⟩ := hat.settled_finish pn
    refine ⟨hmode, ?_⟩
    rw [Source.digest_of_blocks (bl := bl ++ [e.pad.block])
      (by rw [hpad, ← Engine.pad_one_toList hf]; simp [Engine.block]),
      hdone, ph, hh, List.foldl_append]
    rfl
  · have hf' : 56 ≤ e.fill.toNat := by omega
    rw [if_neg hf] at hpad pn
    have hat := Engine.atRound_zero pm pt (px.trans ph.symm) (e.pad_two_w hf')
    obtain ⟨hmode, hdone⟩ := hat.settled_second pn
    refine ⟨hmode, ?_⟩
    have hz : List.replicate (119 - e.fill.toNat) (0x00 : Byte) =
        List.replicate (63 - e.fill.toNat) 0x00 ++ List.replicate 56 0x00 := by
      have hlt := e.fill.isLt
      rw [List.replicate_append_replicate]
      congr 1
      omega
    rw [Source.digest_of_blocks (bl := bl ++ [e.flaggedBlock e.fill.toNat, e.pad.block])
      (by rw [hpad, hz]; simp [Engine.block, Engine.flaggedBlock_toList, Engine.pad_two_toList hf']),
      hdone, ph, hh, List.foldl_append]
    rfl

end Engine.Holds

end Sys2Proof.Machine
end

section
/-! The digest text (spec/43_serializer_and_reads.md) and the host program `HASH m; DIGEST`
(spec/30_encoding.md R100). -/

namespace Sys2Proof.Machine

/-! ### The digest text -/

/-- The digit of a nibble, by formula and by table (R240). -/
theorem hexChar_eq_digit (n : BitVec 4) : hexChar n = Source.digits[n.toNat]'n.isLt := by
  revert n
  decide

/-- Word k of the raw digest (R245). -/
theorem raw_word (h : Vector Word 5) {k : Nat} (hk : k < 5) :
    (Source.raw h).extractLsb' (128 - 32 * k) 32 = h[k] := by
  have above {n : Nat} (x : BitVec n) (y : Word) (s : Nat) (hs : 32 ≤ s) :
      (x ++ y).extractLsb' s 32 = x.extractLsb' (s - 32) 32 := BitVec.extractLsb'_append_eq_of_le hs
  have low {n : Nat} (x : BitVec n) (y : Word) : (x ++ y).extractLsb' 0 32 = y :=
    BitVec.extractLsb'_append_eq_right
  unfold Source.raw
  interval_cases k
  · exact (above _ _ _ (by decide)).trans <| (above _ _ _ (by decide)).trans <|
      (above _ _ _ (by decide)).trans <| (above _ _ _ (by decide)).trans
        (BitVec.extractLsb'_eq_self ..)
  · exact (above _ _ _ (by decide)).trans <| (above _ _ _ (by decide)).trans <|
      (above _ _ _ (by decide)).trans (low ..)
  · exact (above _ _ _ (by decide)).trans <| (above _ _ _ (by decide)).trans (low ..)
  · exact (above _ _ _ (by decide)).trans (low ..)
  · exact low ..

/-- Nibble i mod 8 of word i div 8 is nibble i of the raw digest (R241, R245). -/
theorem nibble_eq_raw (h : Vector Word 5) {i : Nat} (hi : i < 40) :
    nibble (h[i / 8]) (i % 8) = (Source.raw h).extractLsb' (156 - 4 * i) 4 := by
  rw [← raw_word h (by omega)]
  apply BitVec.eq_of_getLsbD_eq
  intro n hn
  simp only [nibble, BitVec.getLsbD_extractLsb', hn, decide_true, Bool.true_and]
  rw [decide_eq_true (by omega), Bool.true_and]
  congr 1
  omega

/-- Character i of the text is digit i of the raw digest (R245). -/
theorem Engine.hexAt_eq_digit (e : Engine) {i : Nat} (hi : i < 40) :
    e.hexAt i = (Source.hexDigits (Source.raw e.h)).getD i 0 := by
  rw [List.getD_eq_getElem _ _ (by simpa [Source.hexDigits] using hi)]
  simp only [Source.hexDigits, List.getElem_map, List.getElem_range, ← nibble_eq_raw e.h hi,
    ← hexChar_eq_digit, Engine.hexAt, Nat.mod_eq_of_lt hi]

/-- HEX j reads four characters of the text (R70, R242). -/
theorem Engine.regRead_hex (e : Engine) (j : Fin 10) :
    e.regRead (RegName.hex j).index = e.hexReg j.val := by
  fin_cases j <;> rfl

/-! ### Runs of a host program -/

/-- The engine after a command that waited for it to finish its steps (R90, R275). -/
def Engine.issued (e : Engine) (i : Instr) : Engine := effect i e.settled

/-- The word of a command acts as the command (R94). -/
theorem wordEffect_encode (i : Instr) : wordEffect (encode i) = effect i := by
  funext e
  rw [wordEffect, decodeReadsBackEveryCommand i]

variable (e : Engine) (v : Option Word) (rest : List Action)

/-- A command the host issues on a free port is taken once the engine has finished its steps, and the host
goes on (R90, R99). -/
theorem reaches_issued (i : Instr) :
    Reaches ⟨e, ⟨none, v, issueActions i ++ rest⟩⟩ ⟨e.issued i, ⟨none, v, rest⟩⟩ := by
  have hsync : ∀ e' : Engine, Reaches ⟨e', ⟨none, v, .sync :: rest⟩⟩ ⟨e', ⟨none, v, rest⟩⟩ :=
    fun _ => Reaches.head (step_sync_free rfl rfl) (Reaches.refl _)
  rw [Engine.issued, ← wordEffect_encode]
  by_cases hb : e.mode = .busy
  · exact Reaches.head ((step_issue_free rfl rfl).trans (issueWord_busy _ hb))
      ((reaches_taken rfl (fun _ => step_sync_held rfl rfl) e).trans (hsync _))
  · rw [Engine.settled_of_ready hb]
    exact Reaches.head ((step_issue_free rfl rfl).trans (issueWord_ready _ hb)) (hsync _)

/-- Commands issued one after the other. -/
theorem reaches_all_issued (is : List Instr) :
    Reaches ⟨e, ⟨none, v, is.flatMap issueActions ++ rest⟩⟩
      ⟨is.foldl Engine.issued e, ⟨none, v, rest⟩⟩ := by
  induction is generalizing e with
  | nil => exact Reaches.refl _
  | cons i is ih =>
    rw [List.flatMap_cons, List.append_assoc]
    exact (reaches_issued e v _ i).trans (ih (e.issued i))

/-- Reads come and go, and the engine stays as it is (R251). -/
theorem reaches_reads {front : List Action} (hf : ∀ a ∈ front, ∃ idx, a = .read idx) :
    ∃ v', Reaches ⟨e, ⟨none, v, front ++ rest⟩⟩ ⟨e, ⟨none, v', rest⟩⟩ := by
  induction front generalizing v with
  | nil => exact ⟨v, Reaches.refl _⟩
  | cons a front ih =>
    obtain ⟨⟨idx, rfl⟩, hf'⟩ := List.forall_mem_cons.1 hf
    obtain ⟨v', hr⟩ := ih (some (e.regRead idx)) hf'
    exact ⟨v', Reaches.head (step_read rfl) hr⟩

/-- ABSORBk commands issued in an open message make it longer by their bytes, in order (R100, R120). -/
theorem Engine.Holds.issued {e : Engine} {m : List Byte} (is : List Instr) (h : e.settled.Holds m)
    (hi : ∀ i ∈ is, i.isAbsorb = true)
    (hl : m.length + (is.flatMap Instr.bytes).length ≤ Config.maxBytes) :
    (is.foldl Engine.issued e).settled.Holds (m ++ is.flatMap Instr.bytes) := by
  induction is generalizing e m with
  | nil => simpa using h
  | cons i is ih =>
    obtain ⟨ha, his⟩ := List.forall_mem_cons.1 hi
    have hle := absorb_bytes_length_le ha
    rw [List.flatMap_cons, List.length_append] at hl
    have he : e.issued i = i.bytes.foldl Engine.absorbByte e.settled :=
      effect_absorb_open ha h.mode (by rw [h.count]; omega)
    have hnext : (e.issued i).settled.Holds (m ++ i.bytes) := by
      rw [he]
      exact h.absorb (by omega) (by omega)
    rw [List.foldl_cons, List.flatMap_cons, ← List.append_assoc]
    exact ih hnext his (by rw [List.length_append]; omega)

/-- The line `HASH m` comes to its end in DONE with the source's digest of m in H, from any engine (R100,
R273). -/
theorem reaches_hashed {m : List Byte} (hl : m.length ≤ Config.maxBytes) :
    ∃ e' v', Reaches ⟨e, ⟨none, v, hashActions m ++ rest⟩⟩ ⟨e', ⟨none, v', rest⟩⟩ ∧
      e'.mode = .done ∧ e'.h = Source.digest m := by
  obtain ⟨hbytes, habs, -, -⟩ := absorbsCarriesTheBytes m
  have hinit : (e.issued .init).settled.Holds [] := Engine.holds_reset
  have hopen := hinit.issued (absorbsOf m) habs (by rw [hbytes]; simpa using hl)
  rw [hbytes, List.nil_append] at hopen
  have hfinal : ((absorbsOf m).foldl Engine.issued (e.issued .init)).issued .final =
      ((absorbsOf m).foldl Engine.issued (e.issued .init)).settled.pad :=
    if_neg (by simp [Engine.closed, hopen.mode])
  obtain ⟨hmode, hdigest⟩ := hopen.pad_settled
  rw [← hfinal] at hmode hdigest
  obtain ⟨v', hwait⟩ := reaches_waited (host := ⟨none, v, .wait :: rest⟩) rfl
    (((absorbsOf m).foldl Engine.issued (e.issued .init)).issued .final)
  refine ⟨_, some v', ?_, hmode, hdigest⟩
  simp only [hashActions, List.append_assoc]
  exact (reaches_issued e v _ .init).trans <|
    (reaches_all_issued _ v _ (absorbsOf m)).trans <| (reaches_issued _ v _ .final).trans hwait

/-- DIGEST up to and with its read of HEX j (R100). -/
theorem digestActions_split (j : Fin 10) :
    digestActions = digestActions.take j.val ++
      .read (RegName.hex j).index :: digestActions.drop (j.val + 1) := by
  revert j
  decide

/-- Settles O39: HASH ends in DONE with the digest in H, the reads before HEX j leave it there, and HEX j
reads four characters of its text. -/
theorem hashThenDigestReadsTheText : Obligations.HashThenDigestReadsTheText := by
  rintro ⟨e, host⟩ m j hw ha hl
  obtain ⟨w, v, agenda⟩ := host
  obtain rfl : w = none := hw
  obtain rfl : agenda = hashActions m ++ digestActions := ha
  obtain ⟨e', v', hhash, hmode, hdigest⟩ := reaches_hashed e v digestActions hl
  have hreads : ∀ a ∈ digestActions.take j.val, ∃ idx, a = .read idx := by
    intro a ha
    obtain ⟨k, -, rfl⟩ := List.mem_map.1 (List.mem_of_mem_take ha)
    exact ⟨_, rfl⟩
  obtain ⟨v'', hfront⟩ := reaches_reads e' v'
    (.read (RegName.hex j).index :: digestActions.drop (j.val + 1)) hreads
  rw [← digestActions_split] at hfront
  refine ⟨_, hhash.trans (hfront.trans (Reaches.head (step_read rfl) (Reaches.refl _))), rfl, hmode,
    congrArg some ?_⟩
  change e'.regRead _ = _
  rw [e'.regRead_hex, Engine.hexReg, e'.hexAt_eq_digit (by omega), e'.hexAt_eq_digit (by omega),
    e'.hexAt_eq_digit (by omega), e'.hexAt_eq_digit (by omega), hdigest]

end Sys2Proof.Machine
end

section
/-! Absorbing and padding (spec/40_padding_and_blocks.md): the engine after ABSORBk and after FINAL, field
by field, and FINAL's blocks against the source's padded buffer. -/

namespace Sys2Proof.Machine

/-! ### One byte -/

/-- Writing at FILL 63 writes the last byte of BUF. -/
theorem Engine.writeAtFill_last {e : Engine} (hf : e.fill = 63) (b : Byte) :
    e.writeAtFill b = { e with buf := e.buf.set 63 b } := by
  simp [Engine.writeAtFill, hf]

/-- Settles O18: the two ways a byte is absorbed, with the record each leaves written out. -/
theorem absorbByteInsertsAtFill : Obligations.AbsorbByteInsertsAtFill := by
  intro e b
  rcases e.absorbByte_cases b with ⟨hf, hb⟩ | ⟨hf, hb⟩
  · refine ⟨fun hne => absurd hf hne, fun _ => ?_⟩
    rw [hb, Engine.writeAtFill_last hf]
    rfl
  · exact ⟨fun _ => hb, fun h63 => absurd h63 hf⟩

/-! ### ABSORBk -/

/-- FILL counts a list of bytes mod 64 (R25, R126). -/
theorem Engine.foldl_absorbByte_fill_toNat (bs : List Byte) (e : Engine) :
    (bs.foldl Engine.absorbByte e).fill.toNat = (e.fill.toNat + bs.length) % 64 := by
  obtain ⟨-, -, hf, -⟩ := Engine.foldl_absorbByte bs e
  rw [hf, BitVec.toNat_add, BitVec.toNat_ofNat, Nat.add_mod_mod]

/-- NBYTES counts a list of bytes within the bound without wrapping (R26). -/
theorem Engine.foldl_absorbByte_nbytes_toNat {bs : List Byte} {e : Engine}
    (hl : e.nbytes.toNat + bs.length ≤ Config.maxBytes) :
    (bs.foldl Engine.absorbByte e).nbytes.toNat = e.nbytes.toNat + bs.length := by
  obtain ⟨-, hn, -⟩ := Engine.foldl_absorbByte bs e
  simp only [Config.maxBytes] at hl
  rw [hn, BitVec.toNat_add, BitVec.toNat_ofNat, Nat.add_mod_mod, Nat.mod_eq_of_lt (by omega)]

/-- Settles O19: the bytes stay inside the block, so only BUF, FILL and NBYTES change. -/
theorem absorbInsideTheBlock : Obligations.AbsorbInsideTheBlock := by
  intro i s hi hm hl hf
  have hlen := absorb_bytes_length_le hi
  refine ⟨_, exec_absorb_open hi hm hl,
    congrArg (State.mk · s.host) (Engine.foldl_absorbByte_inside _ _ hf), ?_,
    Engine.foldl_absorbByte_nbytes_toNat hl,
    fun n hn => Engine.foldl_absorbByte_hit _ _ (by omega) hn,
    fun j hj hmiss => Engine.foldl_absorbByte_miss _ _ hj hmiss⟩
  rw [Engine.foldl_absorbByte_fill_toNat, Nat.mod_eq_of_lt (by omega)]

/-- The block is complete at position 63: bytes after that are not in it (R126). -/
theorem Engine.completedBlock_append {e : Engine} {bs : List Byte}
    (hf : e.fill.toNat + bs.length = 64) (cs : List Byte) :
    e.completedBlock (bs ++ cs) = e.completedBlock bs := by
  apply Vector.ext
  intro j hj
  simp only [Engine.completedBlock, Vector.getElem_ofFn]
  by_cases h : j < e.fill.toNat
  · rw [if_pos h, if_pos h]
  · rw [if_neg h, if_neg h, List.getD_append _ _ _ _ (by omega)]

/-- The whole engine after a list that reaches position 63: the block it completes has started, and only
BUF, FILL and NBYTES have taken in the bytes after that (R126, R140). -/
theorem Engine.foldl_absorbByte_crosses {e : Engine} {bs : List Byte} (hl : bs.length ≤ 64)
    (h : 64 ≤ e.fill.toNat + bs.length) :
    bs.foldl Engine.absorbByte e =
      { e with
        buf := (bs.foldl Engine.absorbByte e).buf
        w := Vector.ofFn fun n : Fin 16 => Source.blockWord (e.completedBlock bs) n.val
        x := e.h
        t := 0
        next := .resume
        mode := .busy
        fill := e.fill + BitVec.ofNat 6 bs.length
        nbytes := e.nbytes + BitVec.ofNat 64 bs.length } := by
  have hlt := e.fill.isLt
  obtain ⟨-, hn, hf, -⟩ := Engine.foldl_absorbByte bs e
  rw [← hn, ← hf]
  clear hn hf
  obtain ⟨cs, ds, rfl, hc⟩ : ∃ cs ds, bs = cs ++ ds ∧ e.fill.toNat + cs.length = 64 :=
    ⟨_, _, (List.take_append_drop (64 - e.fill.toNat) bs).symm, by
      rw [List.length_take]
      omega⟩
  have hstart := Engine.foldl_absorbByte_completes cs e hc
  rw [List.foldl_append, Engine.completedBlock_append hc]
  generalize cs.foldl Engine.absorbByte e = e' at hstart ⊢
  have hfill : e'.fill.toNat = 0 := by rw [hstart]; rfl
  have hin := Engine.foldl_absorbByte_inside ds e' (by rw [List.length_append] at hl; omega)
  obtain ⟨-, hn, hf, -⟩ := Engine.foldl_absorbByte ds e'
  rw [← hn, ← hf] at hin
  refine hin.trans ?_
  rw [hstart]
  rfl

/-- Settles O20: the bytes reach position 63, so the block they complete starts, and FILL is the number
of the bytes after that. -/
theorem absorbCompletesTheBlock : Obligations.AbsorbCompletesTheBlock := by
  intro i s hi hm hl hf
  have hlen := absorb_bytes_length_le hi
  have hlt := s.engine.fill.isLt
  refine ⟨_, exec_absorb_open hi hm hl,
    congrArg (State.mk · s.host) (Engine.foldl_absorbByte_crosses (by omega) hf), ?_,
    Engine.foldl_absorbByte_nbytes_toNat hl,
    fun n hn => Engine.foldl_absorbByte_hit _ _ (by omega) hn,
    fun j hj hmiss => Engine.foldl_absorbByte_miss _ _ hj hmiss⟩
  rw [Engine.foldl_absorbByte_fill_toNat]
  omega

/-- In an open message past the bound ABSORBk only raises TOOLARGE (R125, R305). -/
theorem effect_absorb_tooLarge {i : Instr} {e : Engine} (h : i.isAbsorb = true)
    (hm : e.mode = .ready) (hl : Config.maxBytes < e.nbytes.toNat + i.bytes.length) :
    effect i e = e.raise .tooLarge i.op i.arg := by
  rw [effect_absorb h, Engine.absorbBytes, if_neg (by simp [Engine.closed, hm]), if_pos hl]

/-- Settles O22: the whole engine after Error(TOOLARGE), with the fields of the command's own word. -/
theorem absorbPastTheBoundIsRejectedWhole : Obligations.AbsorbPastTheBoundIsRejectedWhole := by
  intro i s hi hm hl
  obtain ⟨hop, harg⟩ := encode_fields i
  rw [exec_eq_effect, whenReady_ready (by simp [hm]), effect_absorb_tooLarge hi hm hl,
    Engine.raise_tooLarge, hop, harg]

/-! ### FINAL -/

/-- The whole engine after FINAL's padding, but for BUF and W (R130, R140). -/
theorem Engine.pad_eq (e : Engine) :
    e.pad =
      { e with
        buf := e.pad.buf
        w := e.pad.w
        x := e.h
        t := 0
        next := if e.fill.toNat ≤ 55 then .finish else .second
        mode := .busy
        fill := 0 } := by
  obtain ⟨hh, hx, hf, hn, ht, hm, hnext, hi, hs, hl, hop, harg⟩ := e.pad_fields
  exact Engine.ext hh hx rfl rfl hf hn ht hnext hm hi hs hl hop harg

/-- FINAL in an open message pads it, and leaves the ports alone (R130). -/
theorem exec_final_ready {s : State} (hm : s.engine.mode = .ready) :
    exec .final s = .next { s with engine := s.engine.pad } := by
  rw [exec_eq_effect, whenReady_ready (by simp [hm])]
  simp [effect, Engine.final, Engine.closed, hm]

/-- Settles O25: the padding in one block, and BUF position by position. -/
theorem finalWithOneBlock : Obligations.FinalWithOneBlock := by
  intro s hm hf
  have hbuf := fun j (hj : j < 64) => s.engine.pad_one_bufByte hf hj
  refine ⟨_, exec_final_ready hm, congrArg (State.mk · s.host) (s.engine.pad_eq.trans ?_),
    fun j hj => ?_, ?_, fun j hj hj' => ?_, fun n hn => ?_⟩
  · rw [s.engine.pad_one_w hf, if_pos hf]
  · exact (hbuf j (by omega)).trans (if_pos hj)
  · rw [hbuf _ (by omega), if_neg (by omega), if_pos rfl]
  · rw [hbuf j (by omega), if_neg (by omega), if_neg (by omega), if_pos hj']
  · rw [hbuf (56 + n) (by omega), if_neg (by omega), if_neg (by omega), if_neg (by omega),
      Nat.add_sub_cancel_left, Engine.bitLength]

/-- Settles O26: the padding in two blocks, and BUF position by position. -/
theorem finalWithTwoBlocks : Obligations.FinalWithTwoBlocks := by
  intro s hm hf
  have hbuf := fun j (hj : j < 64) => s.engine.pad_two_bufByte hf hj
  refine ⟨_, exec_final_ready hm, congrArg (State.mk · s.host) (s.engine.pad_eq.trans ?_),
    fun j hj => ?_, fun n hn => ?_⟩
  · rw [s.engine.pad_two_w hf, if_neg (by omega)]
  · exact (hbuf j (by omega)).trans (if_pos hj)
  · rw [hbuf (56 + n) (by omega), if_neg (by omega), Nat.add_sub_cancel_left, Engine.bitLength]

/-! ### The source's padded buffer -/

/-- The length field's value, from NBYTES as a number (R130). -/
theorem Engine.bitLength_eq_ofNat (e : Engine) :
    e.bitLength = BitVec.ofNat 64 (8 * e.nbytes.toNat) :=
  BitVec.eq_of_toNat_eq (by simp [Engine.bitLength, Nat.mul_comm])

/-- Settles O27: FILL is NBYTES mod 64 in an open message, so the zero run is the source's; the bytes are
those of the padding block, or of the flagged block and the one after it. -/
theorem finalBlocksAreTheSourcePadding : Obligations.FinalBlocksAreTheSourcePadding := by
  intro s t hi hm h
  have ht : t.engine = s.engine.pad :=
    congrArg State.engine (Host.Outcome.next.inj (h.symm.trans (exec_final_ready hm)))
  have hfill := hi.openFill (.inl hm)
  have hz := Source.zeroRun_eq s.engine.nbytes.toNat
  rw [← hfill] at hz
  rw [ht, ← s.engine.bitLength_eq_ofNat]
  refine ⟨fun hf => ?_, fun hf => ?_⟩
  · rw [if_pos hf] at hz
    exact ⟨by rw [hz, Engine.pad_one_toList hf, List.append_assoc], hz⟩
  · rw [if_neg (by omega)] at hz
    refine ⟨?_, hz⟩
    have hlt := s.engine.fill.isLt
    rw [hz, s.engine.flaggedBlock_toList, Engine.pad_two_toList hf,
      show 119 - s.engine.fill.toNat = 63 - s.engine.fill.toNat + 56 by omega,
      List.replicate_add]
    simp

end Sys2Proof.Machine

namespace Sys2Proof.Source

/-- A list of `64 n` bytes is `n` blocks in a row. -/
theorem exists_blocks {n : Nat} {p : List Byte} (h : p.length = 64 * n) :
    ∃ bl : List Block, p = bl.flatMap Vector.toList := by
  induction n generalizing p with
  | zero => exact ⟨[], List.eq_nil_of_length_eq_zero h⟩
  | succ n ih =>
    obtain ⟨bl, hbl⟩ := ih (p := p.drop 64) (by rw [List.length_drop]; omega)
    refine ⟨⟨(p.take 64).toArray, by simp; omega⟩ :: bl, ?_⟩
    rw [List.flatMap_cons, ← hbl]
    exact (List.take_append_drop 64 p).symm

/-- The blocks of a buffer of whole blocks, one after the other, are the buffer (R134). -/
theorem chunk_toList {p : List Byte} (h : p.length % 64 = 0) :
    (chunk p).flatMap Vector.toList = p := by
  obtain ⟨bl, rfl⟩ := exists_blocks (n := p.length / 64) (p := p) (by omega)
  rw [chunk_flatMap]

theorem chunk_length (p : List Byte) : (chunk p).length = p.length / 64 := by
  simp [chunk]

/-- The zero run fills up the last block, and no more (R131). -/
theorem zeroRun_spec (n : Nat) : (n + 9 + zeroRun n) % 64 = 0 ∧ zeroRun n < 64 := by
  unfold zeroRun
  omega

/-- Settles O29: the zero run makes the padded buffer whole blocks, and whole blocks are cut into
themselves. -/
theorem paddedBufferIsWholeBlocks : Obligations.PaddedBufferIsWholeBlocks := by
  intro m
  obtain ⟨hmod, hlt⟩ := zeroRun_spec m.length
  have hlen := pad_length m
  rw [← hlen] at hmod
  refine ⟨hmod, by omega, ?_, chunk_toList hmod⟩
  rw [chunk_length]
  omega

end Sys2Proof.Source
end

section
/-! A whole block (spec/42_schedule_and_round.md R202, R209): the window and H along the 81 steps from a
block start. -/

namespace Sys2Proof.Machine

/-- Settles O32: before round t the window holds the source's 16 latest words, which give SCHED(t). -/
theorem windowHoldsTheExpansion : Obligations.WindowHoldsTheExpansion := by
  intro e
  have hround : ∀ t, t ≤ 80 → (e.blockStart.steps t).AtRound e.block t :=
    fun t ht => (e.blockStart_atRound.steps ht).1
  have hwindow : ∀ t j, 16 ≤ t → t ≤ 80 → 1 ≤ j → j ≤ 16 →
      (e.blockStart.steps t).wAt (t - j) = (Source.expand e.block).getD (t - j) 0 := by
    intro t j h16 h80 hj hj'
    have hw := (hround t h80).window j hj hj'
    rwa [Nat.max_eq_left h16] at hw
  refine ⟨fun t ht => Engine.schedWord_of_window ht (hround t (by omega)).window, hwindow,
    fun n hn => ?_⟩
  have hw := hwindow 80 (16 - n) (by decide) (by decide) (by omega) (by omega)
  rw [show 80 - (16 - n) = 64 + n by omega, ← Engine.wAt_mod,
    show (64 + n) % 16 = n by omega, Engine.wAt_eq _ hn] at hw
  exact hw

/-- Settles O34: after the rounds of the block the 81st step adds them into H. -/
theorem blockComputesTheCompression : Obligations.BlockComputesTheCompression := by
  intro e
  obtain ⟨r, hs, hh, -⟩ := e.blockStart_atRound.steps_81
  rw [hs, Engine.accum_h, hh, Engine.blockStart_h]

end Sys2Proof.Machine
end

section
/-! A whole message in any split and any interleaving (spec/42_schedule_and_round.md R210): what each
action of the host comes to once the port has taken its word and the engine has finished its steps, and
the open message along such actions. -/

namespace Sys2Proof.Machine

/-! ### The engine once it has finished its steps -/

theorem Engine.settled_ready (e : Engine) : e.settled.mode ≠ .busy := e.steps_stepsLeft_ready

theorem Engine.settled_settled (e : Engine) : e.settled.settled = e.settled :=
  Engine.settled_of_ready e.settled_ready

/-- An engine step while BUSY is one of those the engine has left (R207). -/
theorem Engine.settled_step {e : Engine} (hb : e.mode = .busy) : e.step.settled = e.settled := by
  rw [Engine.settled, Engine.settled, ← Engine.stepsLeft_step e hb, Engine.steps_succ_first]

theorem Engine.SameErrors.trans {e e' e'' : Engine} (h : e.SameErrors e') (h' : e'.SameErrors e'') :
    e.SameErrors e'' := by
  obtain ⟨hi, hs, hl, hop, harg⟩ := h
  obtain ⟨hi', hs', hl', hop', harg'⟩ := h'
  exact ⟨hi'.trans hi, hs'.trans hs, hl'.trans hl, hop'.trans hop, harg'.trans harg⟩

/-- Engine steps leave NBYTES and the error record alone (R203, R205). -/
theorem Engine.steps_frame (e : Engine) (n : Nat) :
    (e.steps n).nbytes = e.nbytes ∧ e.SameErrors (e.steps n) := by
  induction n with
  | zero => exact ⟨rfl, .refl e⟩
  | succ n ih =>
    obtain ⟨hn, hs⟩ := ih
    obtain ⟨-, -, hn', hs'⟩ := (e.steps n).step_frame
    rw [Engine.steps_succ]
    exact ⟨hn'.trans hn, hs.trans hs'⟩

theorem Engine.settled_frame (e : Engine) :
    e.settled.nbytes = e.nbytes ∧ e.SameErrors e.settled :=
  e.steps_frame e.stepsLeft

/-! ### What an action comes to -/

/-- What word `w` comes to at the port: the engine finishes its steps, takes the word, and finishes the
block that starts, if one does (R90, R207). -/
def Engine.accepts (w : CmdWord) (e : Engine) : Engine := (wordEffect w e.settled).settled

/-- The engine once it has taken the word the port holds, if any, and has nothing left to do (R90, R322). -/
def Engine.caughtUp (held : Option CmdWord) (e : Engine) : Engine :=
  match held with
  | some w => e.accepts w
  | none => e.settled

/-- What an action other than a reset comes to, for an engine with nothing left to do: a word put on the
port is taken in time, and no other action changes the engine (R73, R90, R251). -/
def Engine.after (e : Engine) : Action → Engine
  | .issue w => e.accepts w
  | .sync => e
  | .read _ => e
  | .reset => e
  | .wait => e
  | .engine => e

/-- Putting the engine's steps first changes nothing of what it comes to. -/
theorem Engine.caughtUp_settled (held : Option CmdWord) (e : Engine) :
    e.settled.caughtUp held = e.caughtUp held := by
  cases held <;> simp only [Engine.caughtUp, Engine.accepts, Engine.settled_settled]

theorem Engine.settled_caughtUp (held : Option CmdWord) (e : Engine) :
    (e.caughtUp held).settled = e.caughtUp held := by
  cases held <;> simp only [Engine.caughtUp, Engine.accepts, Engine.settled_settled]

section Run

variable (e : Engine) (v : Option Word) (rest : List Action)

/-- The turn of the engine's side brings the engine no further than what it comes to anyway. -/
theorem engineTurn_caughtUp (host : HostSide) :
    ∃ e' held', engineTurn ⟨e, host⟩ = .next ⟨e', { host with cmdWord := held' }⟩ ∧
      e'.caughtUp held' = e.caughtUp host.cmdWord := by
  by_cases hb : e.mode = .busy
  · refine ⟨e.step, host.cmdWord, engineTurn_busy hb, ?_⟩
    rw [← e.step.caughtUp_settled, Engine.settled_step hb, e.caughtUp_settled]
  · cases hw : host.cmdWord with
    | some w =>
      refine ⟨_, none, engineTurn_take hb hw, ?_⟩
      simp only [Engine.caughtUp, Engine.accepts, Engine.settled_of_ready hb]
    | none =>
      refine ⟨e, none, (engineTurn_idle hb hw).trans ?_, rfl⟩
      rw [← hw]

/-- A word issued on a free port is taken at once or held, which comes to the same (R90). -/
theorem reaches_issue_free (w : CmdWord) :
    ∃ e' held', Reaches ⟨e, ⟨none, v, .issue w :: rest⟩⟩ ⟨e', ⟨held', v, rest⟩⟩ ∧
      e'.caughtUp held' = e.accepts w := by
  by_cases hb : e.mode = .busy
  · exact ⟨e, some w,
      Reaches.head ((step_issue_free rfl rfl).trans (issueWord_busy w hb)) (Reaches.refl _), rfl⟩
  · refine ⟨wordEffect w e, none,
      Reaches.head ((step_issue_free rfl rfl).trans (issueWord_ready w hb)) (Reaches.refl _), ?_⟩
    rw [Engine.accepts, Engine.settled_of_ready hb]
    rfl

/-- Every action but a reset comes off the agenda, and the engine comes to what the action adds to what it
came to before (R73). -/
theorem reaches_action (held : Option CmdWord) {a : Action} (ha : a ≠ .reset) :
    ∃ e' held' v', Reaches ⟨e, ⟨held, v, a :: rest⟩⟩ ⟨e', ⟨held', v', rest⟩⟩ ∧
      e'.caughtUp held' = (e.caughtUp held).after a := by
  cases a with
  | reset => exact absurd rfl ha
  | read idx => exact ⟨e, held, _, Reaches.head (step_read rfl) (Reaches.refl _), rfl⟩
  | engine =>
    obtain ⟨e', held', hs, he⟩ := engineTurn_caughtUp e ⟨held, v, rest⟩
    exact ⟨e', held', v, Reaches.head ((step_engine rfl).trans hs) (Reaches.refl _), he⟩
  | wait =>
    obtain ⟨v', hr⟩ := reaches_waited (host := ⟨held, v, .wait :: rest⟩) rfl e
    exact ⟨e.settled, held, some v', hr, e.caughtUp_settled held⟩
  | sync =>
    cases held with
    | none => exact ⟨e, none, v, Reaches.head (step_sync_free rfl rfl) (Reaches.refl _), rfl⟩
    | some u =>
      exact ⟨wordEffect u e.settled, none, v,
        (reaches_taken rfl (fun _ => step_sync_held rfl rfl) e).trans
          (Reaches.head (step_sync_free rfl rfl) (Reaches.refl _)), rfl⟩
  | issue w =>
    cases held with
    | none =>
      obtain ⟨e', held', hr, he⟩ := reaches_issue_free e v rest w
      refine ⟨e', held', v, hr, he.trans ?_⟩
      simp only [Engine.after, Engine.accepts, Engine.caughtUp, Engine.settled_settled]
    | some u =>
      obtain ⟨e', held', hr, he⟩ := reaches_issue_free (wordEffect u e.settled) v rest w
      refine ⟨e', held', v,
        (reaches_taken rfl (fun _ => step_issue_held rfl rfl) e).trans hr, he.trans ?_⟩
      simp only [Engine.after, Engine.accepts, Engine.caughtUp, Engine.settled_settled]

/-- Actions with no reset among them, one after the other (R73). -/
theorem reaches_actions (held : Option CmdWord) {front : List Action}
    (hf : ∀ a ∈ front, a ≠ .reset) :
    ∃ e' held' v', Reaches ⟨e, ⟨held, v, front ++ rest⟩⟩ ⟨e', ⟨held', v', rest⟩⟩ ∧
      e'.caughtUp held' = front.foldl Engine.after (e.caughtUp held) := by
  induction front generalizing e held v with
  | nil => exact ⟨e, held, v, Reaches.refl _, rfl⟩
  | cons a front ih =>
    obtain ⟨ha, hf'⟩ := List.forall_mem_cons.1 hf
    obtain ⟨e₁, held₁, v₁, hr₁, he₁⟩ := reaches_action e v (front ++ rest) held ha
    obtain ⟨e₂, held₂, v₂, hr₂, he₂⟩ := ih e₁ v₁ held₁ hf'
    exact ⟨e₂, held₂, v₂, hr₁.trans hr₂, by rw [he₂, he₁, List.foldl_cons]⟩

/-- With nothing left on the agenda the engine's side takes the held word and finishes its steps (R322). -/
theorem reaches_caughtUp (held : Option CmdWord) :
    Reaches ⟨e, ⟨held, v, []⟩⟩ ⟨e.caughtUp held, ⟨none, v, []⟩⟩ := by
  have hsettled : ∀ e' : Engine, Reaches ⟨e', ⟨none, v, []⟩⟩ ⟨e'.settled, ⟨none, v, []⟩⟩ :=
    fun e' => reaches_settled (fun _ => step_nil rfl) e'
  cases held with
  | none => exact hsettled e
  | some w => exact (reaches_taken rfl (fun _ => step_nil rfl) e).trans (hsettled _)

end Run

/-! ### The open message along the actions -/

/-- The engine between two commands of an open message m, with no error recorded but ILLEGAL, and that
exactly if `ill` says so (R33, R210). -/
structure Engine.HoldsWith (e : Engine) (m : List Byte) (ill : Bool) : Prop where
  holds : e.Holds m
  illegal : e.errIllegal = ill
  seq : e.errSeq = false
  tooLarge : e.errTooLarge = false

/-- An illegal word leaves the open message as it is (R95). -/
theorem Engine.Holds.raise_illegal {e : Engine} {m : List Byte} (h : e.Holds m) (op : Byte)
    (arg : Word) : (e.raise .illegal op arg).Holds m where
  mode := (e.raise_mode .illegal op arg).trans h.mode
  count := by rw [Engine.raise_nbytes, h.count]
  blocks := by
    rw [Engine.raise_h, Engine.raise_buf, Engine.raise_fill]
    exact h.blocks

/-- An issue that may stand in an open message is of an illegal word, of NOP or of an ABSORBk. -/
theorem withinMessage_issue {w : CmdWord} (h : (Action.issue w).withinMessage = true) :
    (∃ why, decode w = .illegal why) ∨ decode w = .command .nop ∨
      ∃ i : Instr, decode w = .command i ∧ i.isAbsorb = true := by
  simp only [Action.withinMessage] at h
  cases hd : decode w with
  | illegal why => exact .inl ⟨why, rfl⟩
  | command i =>
    rw [hd] at h
    cases i with
    | nop => exact .inr (.inl rfl)
    | init | final => cases h
    | _ => exact .inr (.inr ⟨_, rfl, rfl⟩)

namespace Engine.HoldsWith

variable {e : Engine} {m : List Byte} {ill : Bool}

theorem settled_eq (h : e.HoldsWith m ill) : e.settled = e :=
  Engine.settled_of_ready (by rw [h.holds.mode]; decide)

/-- A word that may stand in an open message adds its bytes, or ILLEGAL (R95, R120, R270). -/
theorem accepts (h : e.HoldsWith m ill) {w : CmdWord}
    (hw : (Action.issue w).withinMessage = true)
    (hl : (m ++ (Action.issue w).delivers).length ≤ Config.maxBytes) :
    (e.accepts w).HoldsWith (m ++ (Action.issue w).delivers)
      (ill || (Action.issue w).isIllegal) := by
  rw [Engine.accepts, h.settled_eq, wordEffect]
  simp only [Action.delivers, Action.isIllegal] at hl ⊢
  rcases withinMessage_issue hw with ⟨why, hd⟩ | hd | ⟨i, hd, hi⟩ <;> simp only [hd] at hl ⊢
  · have hh := h.holds.raise_illegal (opField w) (argField w)
    obtain ⟨hill, hseq, hlarge⟩ := e.raise_flags .illegal (opField w) (argField w)
    rw [Engine.settled_of_ready (by rw [hh.mode]; decide), List.append_nil]
    exact ⟨hh, by rw [hill, h.illegal]; rfl, by rw [hseq, h.seq]; rfl,
      by rw [hlarge, h.tooLarge]; rfl⟩
  · rw [Bool.or_false]
    change e.settled.HoldsWith (m ++ []) ill
    rwa [h.settled_eq, List.append_nil]
  · have hlen := absorb_bytes_length_le hi
    rw [List.length_append] at hl
    rw [Bool.or_false, effect_absorb_open hi h.holds.mode (by rw [h.holds.count]; exact hl)]
    obtain ⟨-, hsettled⟩ := (i.bytes.foldl Engine.absorbByte e).settled_frame
    obtain ⟨hill, hseq, hlarge, -⟩ := (e.sameErrors_absorb i.bytes).trans hsettled
    exact ⟨h.holds.absorb (by omega) hl, hill.trans h.illegal, hseq.trans h.seq,
      hlarge.trans h.tooLarge⟩

/-- An action that may stand in an open message adds what it delivers (R210). -/
theorem after (h : e.HoldsWith m ill) {a : Action} (ha : a.withinMessage = true)
    (hl : (m ++ a.delivers).length ≤ Config.maxBytes) :
    (e.after a).HoldsWith (m ++ a.delivers) (ill || a.isIllegal) := by
  cases a with
  | issue w => exact h.accepts ha hl
  | reset => cases ha
  | _ =>
    change e.HoldsWith (m ++ []) (ill || false)
    rwa [List.append_nil, Bool.or_false]

/-- The actions between INIT and FINAL, in order (R210). -/
theorem after_all (h : e.HoldsWith m ill) {body : List Action}
    (hb : body.all Action.withinMessage = true)
    (hl : (m ++ body.flatMap Action.delivers).length ≤ Config.maxBytes) :
    (body.foldl Engine.after e).HoldsWith (m ++ body.flatMap Action.delivers)
      (ill || body.any Action.isIllegal) := by
  induction body generalizing e m ill with
  | nil => simpa using h
  | cons a body ih =>
    rw [List.all_cons, Bool.and_eq_true] at hb
    obtain ⟨ha, hb'⟩ := hb
    rw [List.flatMap_cons, ← List.append_assoc] at hl ⊢
    rw [List.any_cons, ← Bool.or_assoc]
    refine ih (h.after ha ?_) hb' hl
    rw [List.length_append] at hl
    omega

/-- FINAL ends the open message in DONE with the source's digest in H, and keeps NBYTES and the error record
(R130, R210). -/
theorem accepts_final (h : e.HoldsWith m ill) :
    (e.accepts (encode .final)).mode = .done ∧ (e.accepts (encode .final)).h = Source.digest m ∧
      (e.accepts (encode .final)).nbytes.toNat = m.length ∧
      (e.accepts (encode .final)).errSeq = false ∧
      (e.accepts (encode .final)).errTooLarge = false ∧
      (e.accepts (encode .final)).errIllegal = ill := by
  have hpad : e.accepts (encode .final) = e.pad.settled := by
    rw [Engine.accepts, h.settled_eq, wordEffect_encode]
    exact congrArg Engine.settled (if_neg (by simp [Engine.closed, h.holds.mode]))
  obtain ⟨hmode, hdigest⟩ := h.holds.pad_settled
  obtain ⟨-, -, -, hn, -⟩ := e.pad_fields
  obtain ⟨hn', hsettled⟩ := e.pad.settled_frame
  obtain ⟨hill, hseq, hlarge, -⟩ := e.sameErrors_pad.trans hsettled
  rw [hpad]
  exact ⟨hmode, hdigest, by rw [hn', hn, h.holds.count], hseq.trans h.seq, hlarge.trans h.tooLarge,
    hill.trans h.illegal⟩

end Engine.HoldsWith

/-- INIT opens the empty message, with no error recorded, from any engine (R271, R341). -/
theorem Engine.accepts_init (e : Engine) : (e.accepts (encode .init)).HoldsWith [] false := by
  have hinit : e.accepts (encode .init) = Engine.reset := by
    rw [Engine.accepts, wordEffect_encode]
    exact Engine.settled_of_ready (e := Engine.reset) (by decide)
  rw [hinit]
  exact ⟨Engine.holds_reset, rfl, rfl, rfl⟩

/-- No action that may stand in an open message is a reset. -/
theorem ne_reset_of_withinMessage {a : Action} (h : a.withinMessage = true) : a ≠ .reset := by
  rintro rfl
  cases h

/-- Settles O38: what the actions come to is INIT's empty message, then the message the body delivers, then
FINAL's digest; and the machine comes to it. -/
theorem engineComputesTheDigest : Obligations.EngineComputesTheDigest := by
  rintro ⟨e, host⟩ body m hw ha hbody rfl hl
  obtain ⟨held, v, agenda⟩ := host
  obtain rfl : held = none := hw
  obtain rfl : agenda = .issue (encode .init) :: (body ++ [.issue (encode .final)]) := ha
  have hreset : ∀ a ∈ Action.issue (encode .init) :: (body ++ [.issue (encode .final)]),
      a ≠ .reset := by
    intro a ha
    simp only [List.mem_cons, List.mem_append, List.not_mem_nil, or_false] at ha
    rcases ha with rfl | ha | rfl
    · simp
    · exact ne_reset_of_withinMessage (List.all_eq_true.1 hbody a ha)
    · simp
  obtain ⟨e', held', v', hr, he⟩ := reaches_actions e v [] none hreset
  rw [List.append_nil] at hr
  have hopen := (Engine.accepts_init (e.caughtUp none)).after_all hbody hl
  rw [List.nil_append, Bool.false_or] at hopen
  have hfinal : e'.caughtUp held' =
      (body.foldl Engine.after ((e.caughtUp none).accepts (encode .init))).accepts (encode .final) := by
    rw [he, List.foldl_cons, List.foldl_append]
    rfl
  obtain ⟨hmode, hdigest, hn, hseq, hlarge, hill⟩ := hopen.accepts_final
  rw [← hfinal] at hmode hdigest hn hseq hlarge hill
  exact ⟨_, hr.trans (reaches_caughtUp e' v' held'), rfl, rfl, hmode,
    by simp [Engine.dvalid, hmode], hdigest, hn, hseq, hlarge, hill⟩

end Sys2Proof.Machine
end

section
/-! The rotate-and-logic ALU, the function and the constant of a round, and the round sum
(spec/41_alu.md R170 to R179): each operation bit by bit or as a number, and the proofs of the statements
about them. -/

namespace Sys2Proof.Machine

/-! ### ROTL (R170) -/

/-- ROTL is the library's rotation, for every count of R170. -/
theorem rotl_eq_rotateLeft (x : Word) {n : Nat} (hn : n ≤ 31) : rotl x n = x.rotateLeft n := by
  rw [rotl, BitVec.rotateLeft_def, Nat.mod_eq_of_lt (by omega)]

/-- Bit `i` of the result is bit `(i - n) mod 32` of the operand: the bits below `n` come from the top of
the word, the others from `n` positions below. -/
theorem rotl_bit (x : Word) {n i : Nat} (hn : n ≤ 31) (hi : i < 32) :
    (rotl x n).getLsbD i = x.getLsbD ((i + 32 - n) % 32) := by
  have hmod : n % 32 = n := Nat.mod_eq_of_lt (by omega)
  rw [rotl_eq_rotateLeft x hn, BitVec.getLsbD_rotateLeft, hmod]
  rcases Nat.lt_or_ge i n with h | h
  · have hpos : (i + 32 - n) % 32 = 32 - n + i := by omega
    simp [h, hpos]
  · have hpos : (i + 32 - n) % 32 = i - n := by omega
    simp [Nat.not_lt.2 h, hi, hpos]

@[simp] theorem rotl_zero (x : Word) : rotl x 0 = x := by
  apply BitVec.eq_of_getLsbD_eq
  intro i hi
  rw [rotl_bit x (by omega) hi, Nat.sub_zero, Nat.add_mod_right, Nat.mod_eq_of_lt hi]

/-- A word whose bits are all the same is its own rotation. -/
theorem rotl_of_bits_eq {x : Word} {v : Bool} (hx : ∀ i < 32, x.getLsbD i = v) {n : Nat}
    (hn : n ≤ 31) : rotl x n = x := by
  apply BitVec.eq_of_getLsbD_eq
  intro i hi
  rw [rotl_bit x hn hi, hx i hi, hx _ (Nat.mod_lt _ (by omega))]

/-- Settles O54, from the rotation's bits; no bit of 0 or of 0xFFFFFFFF differs from another. -/
theorem rotateMovesEveryBit : Obligations.RotateMovesEveryBit :=
  ⟨fun x _ _ hn hi => rotl_bit x hn hi, rotl_zero,
    fun _ hn => ⟨rotl_of_bits_eq (fun _ _ => BitVec.getLsbD_zero) hn,
      rotl_of_bits_eq (v := true) (by decide) hn⟩,
    by decide, by decide⟩

/-! ### XOR4, CH, PARITY and MAJ (R172 to R175) -/

section Logic

variable (b c d : Word)

/-- CH takes `c`'s bit where `b`'s is 1 and `d`'s where it is 0. -/
theorem ch_bit (i : Nat) :
    (ch b c d).getLsbD i = if b.getLsbD i then c.getLsbD i else d.getLsbD i := by
  rcases Nat.lt_or_ge i 32 with hi | hi
  · simp only [ch, BitVec.getLsbD_or, BitVec.getLsbD_and, BitVec.getLsbD_not, hi]
    cases b.getLsbD i <;> simp
  · simp [BitVec.getLsbD_of_ge _ _ hi]

theorem ch_allOnes : ch 0xFFFFFFFF c d = c := by
  apply BitVec.eq_of_getLsbD_eq
  intro i hi
  have hone : (0xFFFFFFFF : Word).getLsbD i = true :=
    (BitVec.getLsbD_allOnes (v := 32)).trans (decide_eq_true hi)
  rw [ch_bit, if_pos hone]

theorem ch_zero : ch 0 c d = d := by
  apply BitVec.eq_of_getLsbD_eq
  intro i _
  rw [ch_bit, if_neg (by simp)]

/-- CH of two equal words is that word, whatever selects. -/
theorem ch_self : ch b c c = c := by
  apply BitVec.eq_of_getLsbD_eq
  intro i _
  rw [ch_bit, ite_self]

theorem xor4_bit (p q r s : Word) (i : Nat) : (xor4 p q r s).getLsbD i =
    ((p.getLsbD i ^^ q.getLsbD i) ^^ (r.getLsbD i ^^ s.getLsbD i)) := by
  simp only [xor4, BitVec.getLsbD_xor, Bool.xor_assoc]

/-- Equal operands cancel in pairs. -/
theorem xor4_self (x y : Word) : xor4 x x y y = 0 := by
  rw [xor4, BitVec.xor_self, BitVec.zero_xor, BitVec.xor_self]
  rfl

theorem parity_bit (i : Nat) : (parity b c d).getLsbD i =
    (b.getLsbD i ^^ (c.getLsbD i ^^ d.getLsbD i)) := by
  simp only [parity, BitVec.getLsbD_xor, Bool.xor_assoc]

theorem parity_self_right : parity b c c = b := by
  rw [parity, BitVec.xor_assoc, BitVec.xor_self, BitVec.xor_zero]

/-- A bit of MAJ is 1 where at least two of the three bits are. -/
theorem maj_bit (i : Nat) : (maj b c d).getLsbD i =
    decide (2 ≤ (b.getLsbD i).toNat + (c.getLsbD i).toNat + (d.getLsbD i).toNat) := by
  simp only [maj, BitVec.getLsbD_or, BitVec.getLsbD_and]
  cases b.getLsbD i <;> cases c.getLsbD i <;> cases d.getLsbD i <;> rfl

/-- Two equal operands are the majority, in the last two places. -/
theorem maj_self_right : maj b c c = c := by
  apply BitVec.eq_of_getLsbD_eq
  intro i _
  rw [maj_bit]
  cases b.getLsbD i <;> cases c.getLsbD i <;> rfl

/-- Two equal operands are the majority, in the first two places. -/
theorem maj_self_left : maj b b d = b := by
  apply BitVec.eq_of_getLsbD_eq
  intro i _
  rw [maj_bit]
  cases b.getLsbD i <;> cases d.getLsbD i <;> rfl

end Logic

/-- Settles O55, from the bits of the four functions and the corner cases above. -/
theorem logicBitByBit : Obligations.LogicBitByBit :=
  ⟨ch_bit, fun c d => ⟨ch_allOnes c d, ch_zero c d, ch_self d c⟩, xor4_bit, xor4_self, parity_bit,
    fun b c => ⟨parity_self_right b c, parity_self_right b b⟩, maj_bit,
    fun b c d => ⟨maj_self_right b c, maj_self_left b d, maj_self_left 0 d⟩,
    by decide, by decide, by decide, by decide⟩

/-! ### The selector, the function and the constant of a round (R176 to R178) -/

/-- FSEL is `q` in the `q`-th range of twenty rounds. -/
theorem fsel_of_range {t q : Nat} (hlo : q * 20 ≤ t) (hhi : t < (q + 1) * 20) :
    fsel t = BitVec.ofNat 2 q := by
  rw [fsel, Nat.div_eq_of_lt_le hlo hhi]

/-- The constant is the ROM's entry at the selector. -/
theorem roundK_of_fsel {t : Nat} {q : BitVec 2} (h : fsel t = q) :
    roundK t = kRom[q.toNat]'q.isLt := by
  subst h
  rfl

section Selected

variable {t : Nat} (b c d : Word)

theorem logical_eq_ch (h : fsel t = 0) : logical t b c d = ch b c d := if_pos h

/-- Selectors 1 and 3 both select PARITY. -/
theorem logical_eq_parity (h : fsel t = 1 ∨ fsel t = 3) : logical t b c d = parity b c d := by
  rcases h with h | h <;> simp [logical, h]

theorem logical_eq_maj (h : fsel t = 2) : logical t b c d = maj b c d := by
  simp [logical, h]

end Selected

/-- Settles O56: in each range the selector is fixed, and it fixes the function and the constant. -/
theorem selectorAndConstants : Obligations.SelectorAndConstants := by
  refine fun t b c d => ⟨fun hhi => ?_, fun hlo hhi => ?_, fun hlo hhi => ?_, fun hlo hhi => ?_⟩
  · have h : fsel t = 0 := fsel_of_range (q := 0) (by omega) hhi
    exact ⟨h, logical_eq_ch b c d h, roundK_of_fsel h⟩
  · have h : fsel t = 1 := fsel_of_range hlo hhi
    exact ⟨h, logical_eq_parity b c d (.inl h), roundK_of_fsel h⟩
  · have h : fsel t = 2 := fsel_of_range hlo hhi
    exact ⟨h, logical_eq_maj b c d h, roundK_of_fsel h⟩
  · have h : fsel t = 3 := fsel_of_range hlo hhi
    exact ⟨h, logical_eq_parity b c d (.inr h), roundK_of_fsel h⟩

/-! ### SUM5 (R179) -/

/-- SUM5 as a number: the carries out of the word drop at each addition, or all at once. -/
theorem sum5_toNat (a e f w k : Word) : (sum5 a e f w k).toNat =
    ((rotl a 5).toNat + f.toNat + e.toNat + w.toNat + k.toNat) % 2 ^ 32 := by
  simp only [sum5, BitVec.toNat_add, Nat.mod_add_mod]

/-- The additions in the opposite order. -/
theorem sum5_eq_reversed (a e f w k : Word) :
    sum5 a e f w k = k + (w + (e + (f + rotl a 5))) := by
  rw [sum5, BitVec.add_comm _ k, BitVec.add_comm _ w, BitVec.add_comm _ e, BitVec.add_comm _ f]

/-- Settles O57, from the sum as a number and the opposite order. -/
theorem roundSumModWord : Obligations.RoundSumModWord :=
  ⟨fun a e f w k => ⟨sum5_toNat a e f w k, sum5_eq_reversed a e f w k⟩, by decide⟩

end Sys2Proof.Machine
end

section
/-! The schedule and the round (spec/42_schedule_and_round.md R200 to R207): ROUND and ACCUM field by field,
the rounds of a block against the source's, how many steps a block takes, and the run that leaves the
machine with nothing to do. -/

namespace Sys2Proof.Machine

/-! ### ROUND and ACCUM (R201, R203, R205, R206) -/

/-- The schedule word with the library's exclusive or and rotation (R201). -/
theorem Engine.schedWord_eq (e : Engine) (t : Nat) :
    e.schedWord t = if t < 16 then e.wAt t
      else (e.wAt (t - 3) ^^^ e.wAt (t - 8) ^^^ e.wAt (t - 14) ^^^ e.wAt t).rotateLeft 1 := by
  rw [Engine.schedWord, rotl_eq_rotateLeft _ (by decide), xor4]

/-- SCHED(t) replaces W[t mod 16] for t ≥ 16, and no other word (R201). -/
theorem Engine.schedWindow_getElem (e : Engine) (t : Nat) {n : Nat} (hn : n < 16) :
    (e.schedWindow t)[n] = if 16 ≤ t ∧ n = t % 16 then e.schedWord t else e.w[n] := by
  unfold Engine.schedWindow
  split
  · exact (if_neg (by omega)).symm
  · rw [Vector.getElem_set]
    exact if_congr (by omega) rfl rfl

/-- A..E after ROUND, with the library's rotations (R203). -/
theorem Engine.round_x (e : Engine) :
    e.round.x =
      #v[e.x[0].rotateLeft 5 + logical e.t.toNat e.x[1] e.x[2] e.x[3] + e.x[4] +
          e.schedWord e.t.toNat + roundK e.t.toNat,
        e.x[0], e.x[1].rotateLeft 30, e.x[2], e.x[3]] := by
  rw [← rotl_eq_rotateLeft _ (by decide), ← rotl_eq_rotateLeft _ (by decide)]
  rfl

/-- Settles O30: below T = 80 the engine step is ROUND, whose fields are A..E, the window and T. -/
theorem roundRule : Obligations.RoundRule := by
  intro e _ ht
  simp only [e.step_round ht, ← e.schedWord_eq]
  refine ⟨?_, fun n hn => e.schedWindow_getElem _ hn, e.round_t_toNat ht⟩
  rw [← e.round_x]
  rfl

/-- Settles O31: at T = 80 the engine step is ACCUM, which goes on by NEXT; the second padding block
starts from the H just written. -/
theorem accumRule : Obligations.AccumRule := by
  intro e hb ht
  have hs : e.step = e.accum := e.step_accum (by rw [ht]; decide)
  rw [hs]
  refine ⟨e.accum_resume, fun hn => ?_, e.accum_finish, fun hn => ?_⟩
  · rw [e.accum_second hn, hb]
    rfl
  · rw [e.accum_finish hn]
    rfl

/-- Settles O12: on its turn the engine's side makes the engine step, which T tells apart. -/
theorem engineStepsExactlyWhileBusy : Obligations.EngineStepsExactlyWhileBusy := by
  intro s rest ha
  rw [step_engine ha]
  refine ⟨fun hb ht => ?_, fun hb ht => ?_, fun hb hw => engineTurn_idle hb hw⟩
  · rw [← Engine.step_round _ ht]
    exact engineTurn_busy hb
  · rw [← Engine.step_accum _ (by rw [ht]; decide)]
    exact engineTurn_busy hb

/-! ### The rounds of a block (R203, R204) -/

/-- Settles O33: after n steps from a block start the engine is at round n of the block, and has written
A..E, W and T only. -/
theorem roundsFollowTheSource : Obligations.RoundsFollowTheSource := by
  intro e n hn
  obtain ⟨hr, hf⟩ := e.blockStart_atRound.steps hn
  have ht : (e.blockStart.steps n).t = BitVec.ofNat 7 n :=
    BitVec.eq_of_toNat_eq (by rw [hr.counter, BitVec.toNat_ofNat]; omega)
  have hh : (e.blockStart.steps n).h = e.h := by rw [hf, Engine.blockStart_h]
  refine ⟨?_, ht, ?_⟩
  · rw [hr.vars, hh]
  · rw [ht] at hf
    exact hf

/-! ### The steps a block takes (R207) -/

/-- Each engine step of a BUSY engine is one of those it has left (R207). -/
theorem Engine.stepsLeft_steps (e : Engine) {k : Nat} (hk : k ≤ e.stepsLeft) :
    (e.steps k).stepsLeft + k = e.stepsLeft := by
  induction k with
  | zero => rfl
  | succ k ih =>
    have hleft := ih (by omega)
    have hb : (e.steps k).mode = .busy := (Engine.stepsLeft_pos_iff _).1 (by omega)
    have hstep := (e.steps k).stepsLeft_step hb
    rw [Engine.steps_succ]
    omega

/-- The engine is BUSY until it has made all the steps it has left (R207). -/
theorem Engine.steps_busy (e : Engine) {k : Nat} (hk : k < e.stepsLeft) :
    (e.steps k).mode = .busy := by
  have hleft := e.stepsLeft_steps hk.le
  exact (Engine.stepsLeft_pos_iff _).1 (by omega)

/-- A block, and the second padding block after it, are the most an engine has left to do (R207). -/
theorem Engine.stepsLeft_le (e : Engine) : e.stepsLeft ≤ 162 := by
  unfold Engine.stepsLeft
  split
  · split <;> omega
  · omega

/-- The steps of an engine at the start of a block (R207). -/
theorem Engine.stepsLeft_of_start {e : Engine} (hb : e.mode = .busy) (ht : e.t = 0) :
    e.stepsLeft = if e.next = .second then 162 else 81 := by
  rw [Engine.stepsLeft, if_pos hb, ht]
  split <;> rfl

/-- A command that turns a READY engine BUSY has started a block, to be followed by a second one exactly
if it is a FINAL with FILL ≥ 56 (R126, R130). -/
theorem effect_starts {i : Instr} {e : Engine} (hm : e.mode = .ready)
    (hb : (effect i e).mode = .busy) :
    (effect i e).t = 0 ∧ ((effect i e).next = .second ↔ i = .final ∧ 56 ≤ e.fill.toNat) := by
  have hdec := decodeReadsBackEveryCommand i
  rw [← wordEffect_encode] at hb ⊢
  rcases wordEffect_cases (encode i) e with ⟨-, he⟩ | ⟨-, he, -⟩ | ⟨-, k, he, -⟩ |
    ⟨-, -, j, hj, hab, -, he⟩ | ⟨-, -, hj, he⟩ <;> rw [he] at hb ⊢
  · simp [Engine.reset] at hb
  · simp [hm] at hb
  · cases k <;> simp [Engine.raise_mode, hm] at hb
  · obtain rfl : i = j := Decoded.command.inj (hdec.symm.trans hj)
    have hlen := absorb_bytes_length_le hab
    have hcross : 64 ≤ e.fill.toNat + i.bytes.length := by
      by_contra hin
      rw [Engine.foldl_absorbByte_inside _ _ (by omega)] at hb
      simp [hm] at hb
    have hne : i ≠ .final := fun h => by simp [h, Instr.isAbsorb] at hab
    rw [Engine.foldl_absorbByte_crosses (by omega) hcross]
    simp [hne]
  · obtain rfl : i = .final := Decoded.command.inj (hdec.symm.trans hj)
    rw [e.pad_eq]
    by_cases hf : 56 ≤ e.fill.toNat
    · simp [hf, show ¬ e.fill.toNat ≤ 55 by omega]
    · simp [hf, show e.fill.toNat ≤ 55 by omega]

/-- Settles O35: both parts count the steps left, which a block start sets to 81, or to 162 where a
second padding block follows. -/
theorem blocksTakeEightyOneSteps : Obligations.BlocksTakeEightyOneSteps := by
  have hexact : ∀ e : Engine, (∀ k, k < e.stepsLeft → (e.steps k).mode = .busy) ∧
      (e.steps e.stepsLeft).mode ≠ .busy :=
    fun e => ⟨fun _ hk => e.steps_busy hk, e.steps_stepsLeft_ready⟩
  refine ⟨fun i s t hm h hb => ?_, fun e _ _ => ?_⟩
  · have ht : t.engine = effect i s.engine := by
      rw [exec_next, if_neg (by simp [hm])] at h
      rw [← Host.Outcome.next.inj h]
    rw [ht] at hb ⊢
    obtain ⟨h0, hsecond⟩ := effect_starts hm hb
    have hcount := Engine.stepsLeft_of_start hb h0
    rw [if_congr hsecond rfl rfl] at hcount
    rw [← hcount]
    exact hexact _
  · exact ⟨(hexact e).1, (hexact e).2, e.stepsLeft_le⟩

/-! ### The machine with nothing to do (R207, R361) -/

/-- Every agenda comes to its end, whatever is on it (R361). -/
theorem reaches_agenda_end (agenda : List Action) (e : Engine) (held : Option CmdWord)
    (v : Option Word) :
    ∃ e' held' v', Reaches ⟨e, ⟨held, v, agenda⟩⟩ ⟨e', ⟨held', v', []⟩⟩ := by
  induction agenda generalizing e held v with
  | nil => exact ⟨e, held, v, Reaches.refl _⟩
  | cons a rest ih =>
    by_cases ha : a = .reset
    · obtain ⟨e', held', v', hr⟩ := ih Engine.reset none v
      exact ⟨e', held', v', Reaches.head (step_reset (by rw [ha])) hr⟩
    · obtain ⟨e₁, held₁, v₁, hr₁, -⟩ := reaches_action e v rest held ha
      obtain ⟨e₂, held₂, v₂, hr₂⟩ := ih e₁ held₁ v₁
      exact ⟨e₂, held₂, v₂, hr₁.trans hr₂⟩

/-- Settles O36: the agenda ends, and then the engine's side takes the held word, if any, and finishes
its steps. -/
theorem commandPortBecomesReady : Obligations.CommandPortBecomesReady := by
  intro s
  obtain ⟨e, held, v, hr⟩ :=
    reaches_agenda_end s.host.agenda s.engine s.host.cmdWord s.host.readData
  refine ⟨_, hr.trans (reaches_caughtUp e v held), rfl, rfl, ?_⟩
  rw [← e.settled_caughtUp held]
  exact Engine.settled_ready _

end Sys2Proof.Machine
end

section
/-! The hex serializer and the read port (spec/43_serializer_and_reads.md R240 to R252): the digest text
by characters, the HEX registers by bytes, and reads at any point of a run. -/

namespace Sys2Proof.Machine

/-! ### The digest text (R240 to R245) -/

/-- A nibble, by shifting it down to the low end (R241). -/
theorem nibble_eq_shift (v : Word) (j : Nat) :
    nibble v j = (v >>> (28 - 4 * j)).setWidth 4 :=
  BitVec.setWidth_ushiftRight_eq_extractLsb.symm

/-- The character codes, as numbers (R240). -/
theorem hexChar_toNat (n : BitVec 4) :
    (hexChar n).toNat = if n.toNat ≤ 9 then 0x30 + n.toNat else 0x57 + n.toNat := by
  have hn : n.toNat < 16 := n.isLt
  unfold hexChar
  split <;> simp [BitVec.toNat_add, BitVec.toNat_setWidth] <;> omega

section Text

variable (e : Engine)

/-- Within the text no position is reduced mod 40 (R241). -/
theorem Engine.hexAt_eq {i : Nat} (hi : i < 40) :
    e.hexAt i = hexChar (nibble e.h[i / 8] (i % 8)) := by
  simp only [Engine.hexAt, Nat.mod_eq_of_lt hi]

@[simp] theorem Engine.hexText_length : e.hexText.length = 40 := by
  simp [Engine.hexText]

theorem Engine.hexText_getElem? {i : Nat} (hi : i < 40) : e.hexText[i]? = some (e.hexAt i) := by
  simp [Engine.hexText, hi]

theorem Engine.hexText_getD {i : Nat} (hi : i < 40) : e.hexText.getD i 0 = e.hexAt i := by
  rw [List.getD_eq_getElem?_getD, e.hexText_getElem? hi, Option.getD_some]

end Text

/-- Settles O51: the character codes as numbers, and each character as the code of its nibble. -/
theorem digestTextIsFixedWidth : Obligations.DigestTextIsFixedWidth := by
  refine ⟨fun n => ⟨fun hle => ?_, fun hge => ?_⟩, fun e => ⟨e.hexText_length, fun i hi => ?_⟩⟩
  · rw [hexChar_toNat, if_pos hle]
  · rw [hexChar_toNat, if_neg (by omega)]
  · rw [e.hexText_getElem? hi, e.hexAt_eq hi, nibble_eq_shift]

/-- Settles O52: the two texts have the same character at each of the 40 positions. -/
theorem digestTextIsTheRawDigest : Obligations.DigestTextIsTheRawDigest := by
  intro e
  refine List.map_congr_left fun i hi => ?_
  rw [e.hexAt_eq (List.mem_range.1 hi), nibble_eq_raw e.h (List.mem_range.1 hi), hexChar_eq_digit]

/-! ### The HEX registers (R242) -/

/-- Byte n of HEX j is character 4j + n of the text (R242). -/
theorem Engine.lane_hexReg (e : Engine) (j : Nat) {n : Nat} (hn : n < 4) :
    lane (e.hexReg j) n = e.hexAt (4 * j + n) := by
  obtain ⟨h0, h1, h2, h3⟩ := lane_be32 (e.hexAt (4 * j)) (e.hexAt (4 * j + 1))
    (e.hexAt (4 * j + 2)) (e.hexAt (4 * j + 3))
  match n with
  | 0 => exact h0
  | 1 => exact h1
  | 2 => exact h2
  | 3 => exact h3

/-- Settles O53: HEX j packs the characters from 4j on, and these are nibbles 0 to 3 of word j div 2 for
even j, and nibbles 4 to 7 for odd j. -/
theorem hexRegistersPackTheText : Obligations.HexRegistersPackTheText := by
  intro e j
  have hread : e.regRead (0x40 + BitVec.ofNat 8 j.val) = e.hexReg j.val := e.regRead_hex j
  rw [hread]
  refine ⟨?_, fun n hn => ?_⟩
  · rw [e.hexText_getD (by omega), e.hexText_getD (by omega), e.hexText_getD (by omega),
      e.hexText_getD (by omega), Engine.hexReg]
  · have hword : (4 * j.val + n) / 8 = j.val / 2 := by omega
    have hshift : 28 - 4 * ((4 * j.val + n) % 8) =
        (if j.val % 2 = 0 then 28 else 12) - 4 * n := by
      split <;> omega
    rw [e.lane_hexReg _ hn, e.hexAt_eq (by omega), nibble_eq_shift, hshift]
    simp only [hword]

/-! ### Reads (R250 to R252) -/

/-- Settles O9: the step of a read is `readReg`, whatever the engine's state. -/
theorem readChangesNothing : Obligations.ReadChangesNothing :=
  fun _ _ _ ha => ⟨_, step_read ha, rfl, rfl, rfl, rfl⟩

/-- The first step of a longer run. -/
theorem run_succ {s t : State} (h : step s = .next t) (n : Nat) :
    Host.Core.run core (n + 1) s = Host.Core.run core n t := by
  have hc : core.step s = .next t := h
  simp only [Host.Core.run, hc]

/-- Turns of the engine's side, no more than the engine has steps left, make one engine step each
and leave the host's side as it is, but for the agenda (R73, R200). -/
theorem run_engine_turns {s : State} {k : Nat} {rest : List Action} (hk : k ≤ s.engine.stepsLeft)
    (ha : s.host.agenda = List.replicate k .engine ++ rest) (n : Nat) :
    Host.Core.run core (k + n) s =
      Host.Core.run core n { s.withAgenda rest with engine := s.engine.steps k } := by
  induction k generalizing s with
  | zero =>
    obtain rfl : s.host.agenda = rest := ha
    rw [Nat.zero_add, Engine.steps_zero]
    rfl
  | succ k ih =>
    have hb : s.engine.mode = .busy := (Engine.stepsLeft_pos_iff _).1 (by omega)
    have hleft := s.engine.stepsLeft_step hb
    have hstep := (step_engine ha).trans (engineTurn_busy hb)
    rw [Nat.succ_add, run_succ hstep]
    exact ih (by simp; omega) rfl

/-- Settles O37: after the turns of the engine's side the read is at the head of the agenda, and it is
never blocked. -/
theorem readsAreAdmittedAtEveryRound : Obligations.ReadsAreAdmittedAtEveryRound := by
  intro s idx k rest _ _ hk ha
  rw [run_engine_turns hk ha, run_succ (step_read rfl)]
  rfl

end Sys2Proof.Machine
end

section
/-! The control commands (spec/44_control.md): every step answers a next state, the digest in DONE, and
what NOP and INIT leave. -/

namespace Sys2Proof.Machine

/-! ### No step is stuck (R275, R300) -/

/-- Settles O13: in each of the cases of a step there is a next state. -/
theorem everyStepAnswersANextState : Obligations.EveryStepAnswersANextState := fun s =>
  (step_engine_cases s).imp fun _ ht => ht.1

/-! ### DONE (R272) -/

/-- The step that takes a word has the word's effect on the engine (R90, R95). -/
theorem step_engine_of_takes {s t : State} {w : CmdWord} (h : step s = .next t)
    (hw : s.takes = some w) : t.engine = wordEffect w s.engine := by
  rcases step_cases h with ⟨hr, -⟩ | ⟨-, -, hb, -⟩ | ⟨-, -, -, v, hv, he⟩ | ⟨-, -, hn, -⟩
  · simp [takes_of_resets hr] at hw
  · simp [takes_of_busy hb] at hw
  · cases hv.symm.trans hw
    exact he
  · simp [hn] at hw

/-- A taken word other than INIT's leaves MODE at DONE: the message is closed, so nothing is absorbed
or padded and TOOLARGE is not raised (R272). -/
theorem wordEffect_mode_of_done {w : CmdWord} (hw : w ≠ encode .init) {e : Engine}
    (hd : e.mode = .done) : (wordEffect w e).mode = .done := by
  have hc : e.closed = true := e.closed_iff.2 (.inl hd)
  rcases wordEffect_cases w e with ⟨hi, -⟩ | ⟨-, he, -⟩ | ⟨-, k, he, hk⟩ | ⟨-, ho, -⟩ | ⟨-, ho, -⟩
  · exact absurd hi hw
  · rw [he, hd]
  · rw [he, Engine.raise_mode, if_neg (fun h => by simp [hk h] at hc), hd]
  · simp [ho] at hc
  · simp [ho] at hc

/-- In a closed message a taken ABSORBk or FINAL raises SEQ with the fields of its own word (R301,
R304). -/
theorem wordEffect_closed {w : CmdWord} {i : Instr} (h : decode w = .command i)
    (hi : i.isAbsorb = true ∨ i = .final) {e : Engine} (hc : e.mode = .done ∨ e.mode = .error) :
    wordEffect w e = e.raise .seq (opField w) (argField w) := by
  obtain ⟨hop, harg⟩ := decode_command h
  rw [hop, harg, ← effect_closed hi hc, wordEffect, h]

/-- Settles O17: outside BUSY a step that is no restart takes a word other than INIT's or leaves the
engine as it is, and a taken ABSORBk or FINAL raises SEQ. -/
theorem digestStaysUntilRestart : Obligations.DigestStaysUntilRestart := by
  intro s t hd h
  refine ⟨?_, fun w i hw hdec hi => ?_⟩
  · by_cases hr : s.restarts
    · exact .inr hr
    · left
      rcases step_cases_of_not_restarts h hr with ⟨-, hb, -⟩ | ⟨-, w, hw, -, he⟩ | he
      · simp [hd] at hb
      · rw [he]
        exact ⟨wordEffect_mode_of_done hw hd, wordEffect_h hw _⟩
      · rw [he]
        exact ⟨hd, rfl⟩
  · rw [step_engine_of_takes h hw, wordEffect_closed hdec hi (.inl hd), Engine.raise_seq]

/-! ### NOP and INIT (R270, R271) -/

/-- Where CMD_READY = 1, a command has its effect on the engine and leaves the ports alone (R275). -/
theorem exec_ready (i : Instr) {s : State} (hb : s.engine.mode ≠ .busy) :
    exec i s = .next { s with engine := effect i s.engine } := by
  rw [exec_eq_effect, whenReady_ready hb]

/-- Settles O15: the effect of NOP is the identity. -/
theorem nopLeavesTheState : Obligations.NopLeavesTheState :=
  fun _ hb => exec_ready .nop hb

/-- Settles O16: the effect of INIT is the engine of R271's values, which are the reset values. -/
theorem initSetsEveryElement : Obligations.InitSetsEveryElement :=
  fun _ hb => ⟨exec_ready .init hb, exec_ready .init hb⟩

end Sys2Proof.Machine
end

section
/-! The exceptions (spec/60_exceptions.md R302 to R309): what Error writes, the order of the three checks,
SEQ in a closed message, and the only ways out of ERROR. -/

namespace Sys2Proof.Machine

/-! ### Error (R302) -/

/-- Settles O40: for each kind, the first error is the one raised where no flag was set. -/
theorem errorRecordRule : Obligations.ErrorRecordRule := by
  intro e op arg first
  have hfirst : first = !e.anyError := rfl
  rw [hfirst, Engine.raise_illegal, Engine.raise_seq, Engine.raise_tooLarge]
  cases e.anyError <;> exact ⟨rfl, rfl, rfl⟩

/-! ### SEQ in a closed message (R304) -/

/-- Settles O23: the whole engine after Error(SEQ), with the fields of the command's own word; NOP leaves
the engine as it is, and INIT leaves ERR_SEQ at 0. -/
theorem closedMessageRaisesSeq : Obligations.ClosedMessageRaisesSeq := by
  refine ⟨fun i s hi hc => ?_, fun i s t hi h hseq => ?_⟩
  · obtain ⟨hop, harg⟩ := encode_fields i
    have hb : s.engine.mode ≠ .busy := by rcases hc with hm | hm <;> simp [hm]
    rw [exec_ready i hb, effect_closed hi hc, Engine.raise_seq, hop, harg]
  · rw [exec_eq_effect] at h
    rcases whenReady_cases h with ⟨-, rfl⟩ | ⟨-, rfl⟩
    · exact hseq
    · rcases hi with rfl | rfl
      · exact hseq
      · exact absurd hseq Bool.false_ne_true

/-! ### The order of the checks (R306) -/

/-- A taken word that decodes to a command has the command's effect (R275). -/
theorem wordEffect_of_command {w : CmdWord} {i : Instr} (h : decode w = .command i) (e : Engine) :
    wordEffect w e = effect i e := by
  simp only [wordEffect, h]

/-- A taken illegal word raises ILLEGAL, whatever MODE is (R303). -/
theorem wordEffect_of_illegal {w : CmdWord} {why : Illegal} (h : decode w = .illegal why)
    (e : Engine) : wordEffect w e = e.raise .illegal (opField w) (argField w) := by
  simp only [wordEffect, h]

/-- In an open message past the bound a taken ABSORBk raises TOOLARGE with the fields of its own word
(R301, R305). -/
theorem wordEffect_tooLarge {w : CmdWord} {i : Instr} (h : decode w = .command i)
    (hi : i.isAbsorb = true) {e : Engine} (hm : e.mode = .ready)
    (hl : Config.maxBytes < e.nbytes.toNat + i.bytes.length) :
    wordEffect w e = e.raise .tooLarge (opField w) (argField w) := by
  obtain ⟨hop, harg⟩ := decode_command h
  rw [hop, harg, ← effect_absorb_tooLarge hi hm hl, wordEffect_of_command h]

/-- In an open message FINAL pads (R130). -/
theorem effect_final_open {e : Engine} (hm : e.mode = .ready) : effect .final e = e.pad :=
  if_neg (by simp [Engine.closed, hm])

theorem eq_nop_init_or_final_of_not_absorb {i : Instr} (h : ¬ i.isAbsorb = true) :
    i = .nop ∨ i = .init ∨ i = .final := by
  cases i <;> simp [Instr.isAbsorb] at h ⊢

/-- In an open message a command other than INIT leaves the error record as it is, unless it is an ABSORBk
past the bound (R306). -/
theorem sameErrors_effect_open {i : Instr} {e : Engine} (hi : i ≠ .init) (hm : e.mode = .ready)
    (hl : i.isAbsorb = true → e.nbytes.toNat + i.bytes.length ≤ Config.maxBytes) :
    e.SameErrors (effect i e) := by
  by_cases hab : i.isAbsorb = true
  · exact effect_absorb_open hab hm (hl hab) ▸ e.sameErrors_absorb i.bytes
  · rcases eq_nop_init_or_final_of_not_absorb hab with rfl | rfl | rfl
    · exact .refl e
    · exact absurd rfl hi
    · exact effect_final_open hm ▸ e.sameErrors_pad

/-- Settles O41: each check that applies decides the effect of the taken word, and a command that fails
none records no error. -/
theorem errorPriority : Obligations.ErrorPriority := by
  intro w s t hb h
  rw [takeWord_ready w hb] at h
  cases h
  refine ⟨fun why hd => wordEffect_of_illegal hd _, fun i hd hi hc => wordEffect_closed hd hi hc,
    fun i hd hi hm hl => wordEffect_tooLarge hd hi hm hl, fun i hd hi hok => ?_⟩
  change s.engine.SameErrors (wordEffect w s.engine)
  rw [wordEffect_of_command hd]
  rcases hok with rfl | ⟨hm, hf | hl⟩
  · exact .refl s.engine
  · exact sameErrors_effect_open hi hm fun hab => by simp [hf, Instr.isAbsorb] at hab
  · exact sameErrors_effect_open hi hm fun _ => hl

/-! ### Out of ERROR (R309) -/

/-- A taken word other than INIT's leaves MODE at ERROR: the message is closed, so nothing is absorbed
or padded, and no error has another mode (R309). -/
theorem wordEffect_mode_of_error {w : CmdWord} (hw : w ≠ encode .init) {e : Engine}
    (hm : e.mode = .error) : (wordEffect w e).mode = .error := by
  have hc : e.closed = true := e.closed_iff.2 (.inr hm)
  rcases wordEffect_cases w e with ⟨hi, -⟩ | ⟨-, he, -⟩ | ⟨-, k, he, -⟩ | ⟨-, ho, -⟩ | ⟨-, ho, -⟩
  · exact absurd hi hw
  · rw [he, hm]
  · rw [he, Engine.raise_mode, hm, ite_self]
  · simp [ho] at hc
  · simp [ho] at hc

/-- Settles O44: in ERROR a step that is no restart takes a word other than INIT's or leaves the engine as
it is; and a restart leaves the reset engine. -/
theorem onlyRestartLeavesError : Obligations.OnlyRestartLeavesError := by
  intro s t h
  refine ⟨fun hm hne => ?_, fun hr => ?_⟩
  · by_contra hr
    rcases step_cases_of_not_restarts h hr with ⟨-, hb, -⟩ | ⟨-, w, hw, -, he⟩ | he
    · simp [hm] at hb
    · exact hne (he ▸ wordEffect_mode_of_error hw hm)
    · exact hne (he ▸ hm)
  · rw [step_engine_of_restarts h hr]
    exact ⟨rfl, rfl, rfl, rfl⟩

end Sys2Proof.Machine
end

section
/-! Reset and the hazards of reads (spec/70_reset_and_hazards.md R340 to R354): what a reset leaves, and
the only steps that change NBYTES between the reads of its halves. -/

namespace Sys2Proof.Machine

/-! ### Reset (R340 to R344) -/

/-- Settles O10: the step of a reset is `resetEngine`, whatever MODE and T are. -/
theorem resetSetsEveryElement : Obligations.ResetSetsEveryElement :=
  fun _ _ ha => ⟨_, step_reset ha, resetEngine_cmdWord _, resetEngine_agenda _, resetEngine_engine _⟩

/-- Settles O11: STATUS is computed on the one reset state; the other fields are read off it. -/
theorem resetStateIsReadyAndEmpty : Obligations.ResetStateIsReadyAndEmpty :=
  ⟨rfl, by decide, by decide, rfl, rfl, rfl⟩

/-! ### NBYTES between two reads (R354) -/

/-- A taken word other than INIT's leaves NBYTES as it is, or is an ABSORBk that adds k to it (R126). -/
theorem wordEffect_nbytes {w : CmdWord} (hw : w ≠ encode .init) (e : Engine) :
    (wordEffect w e).nbytes = e.nbytes ∨ ∃ i, decode w = .command i ∧ i.isAbsorb = true ∧
      (wordEffect w e).nbytes = e.nbytes + BitVec.ofNat 64 i.bytes.length := by
  rcases wordEffect_cases w e with ⟨hi, -⟩ | ⟨-, he, -⟩ | ⟨-, k, he, -⟩ |
    ⟨-, -, i, hd, hab, -, he⟩ | ⟨-, -, -, he⟩
  · exact absurd hi hw
  · exact .inl (by rw [he])
  · exact .inl (by rw [he, Engine.raise_nbytes])
  · obtain ⟨-, hn, -⟩ := Engine.foldl_absorbByte i.bytes e
    exact .inr ⟨i, hd, hab, by rw [he, hn]⟩
  · obtain ⟨-, -, -, hn, -⟩ := e.pad_fields
    exact .inl (by rw [he, hn])

/-- Settles O48: of the steps that are no restart, an engine step keeps NBYTES, and so does every taken
word that is not an absorbed ABSORBk. -/
theorem nbytesChangesOnlyInHostActions : Obligations.NbytesChangesOnlyInHostActions := by
  intro s t h hne
  by_cases hr : s.restarts
  · exact .inl hr
  · right
    rcases step_cases_of_not_restarts h hr with ⟨-, -, he⟩ | ⟨-, w, hi, hw, he⟩ | he
    · obtain ⟨-, -, hn, -⟩ := s.engine.step_frame
      exact absurd (by rw [he, hn]) hne
    · rcases wordEffect_nbytes hi s.engine with hn | ⟨i, hd, hab, hn⟩
      · exact absurd (by rw [he, hn]) hne
      · exact ⟨w, i, hw, hd, hab, by rw [he, hn]⟩
    · exact absurd (by rw [he]) hne

end Sys2Proof.Machine
end
